-- ==== Sys2Proof/Word.lean ====
section
/-! DEFINITION. The word and byte types of the block. Registers, memory words, addresses and
instructions are 16 bits wide (rules R7 and R8); console bytes are 8 bits wide (rule R10). The
modular addition, the bitwise AND and the complement of rule R11 are those of `BitVec`. -/

namespace Sys2Proof

/-- A 16-bit word: a register, a memory cell, an address or an instruction (rule R7, `WORD`, `ADDR`). -/
abbrev Word := BitVec 16

/-- One console byte (rules R31 and R32). -/
abbrev Byte := BitVec 8

end Sys2Proof
end

