-- ==== Sys2Proof/Syntax.lean ====
section
/-! DEFINITION. The instructions as syntax: one constructor for each of the 19 rows of
spec/opcode_table.json. An operand holds exactly the values its field can hold (rule R85), so an
operand out of range cannot be written. The bits a format ignores (rule R88) are no operands. -/

namespace Sys2Proof

/-- The eight general registers R0…R7 (rule R20). -/
inductive Reg where
  | r0 | r1 | r2 | r3 | r4 | r5 | r6 | r7
  deriving DecidableEq, Repr

/-- The instructions, in the order of the opcode table. -/
inductive Instr where
  /-- ADD, register form (rule R110). -/
  | addReg (dr sr1 sr2 : Reg)
  /-- ADD, immediate form (rule R111). -/
  | addImm (dr sr1 : Reg) (imm5 : BitVec 5)
  /-- AND, register form (rule R112). -/
  | andReg (dr sr1 sr2 : Reg)
  /-- AND, immediate form (rule R113). -/
  | andImm (dr sr1 : Reg) (imm5 : BitVec 5)
  /-- NOT (rule R114). -/
  | notReg (dr sr : Reg)
  /-- BR, with its three condition bits (rule R120). -/
  | br (n z p : Bool) (off9 : BitVec 9)
  /-- JMP, and RET when the base is R7 (rule R121). -/
  | jmp (baseR : Reg)
  /-- JSR (rule R122). -/
  | jsr (off11 : BitVec 11)
  /-- JSRR (rule R123). -/
  | jsrr (baseR : Reg)
  /-- LD (rule R130). -/
  | ld (dr : Reg) (off9 : BitVec 9)
  /-- ST (rule R140). -/
  | st (sr : Reg) (off9 : BitVec 9)
  /-- LDR (rule R132). -/
  | ldr (dr baseR : Reg) (off6 : BitVec 6)
  /-- STR (rule R142). -/
  | str (sr baseR : Reg) (off6 : BitVec 6)
  /-- RTI, opcode 8: a fatal decode error in this block (rule R170). -/
  | rti
  /-- LDI (rule R131). -/
  | ldi (dr : Reg) (off9 : BitVec 9)
  /-- STI (rule R141). -/
  | sti (sr : Reg) (off9 : BitVec 9)
  /-- RES, the reserved opcode 13: a fatal decode error (rule R171). -/
  | res
  /-- LEA (rule R133). -/
  | lea (dr : Reg) (off9 : BitVec 9)
  /-- TRAP (rule R150). -/
  | trap (vect8 : BitVec 8)
  deriving DecidableEq, Repr

end Sys2Proof
end

