-- ==== Sys2Proof/WellFormed.lean ====
section
/-! DEFINITION. Which instructions are legal. The operand ranges of rule R85 are carried by the
types of `Instr`, so no operand can be ill-formed. What is left to check is rule R89: the words of
opcodes 8 and 13 are the illegal encodings, and no other word is illegal or reserved. -/

namespace Sys2Proof

/-- An instruction is well-formed when it has a handler (rules R83 and R89). The two checks are
RTI (opcode 8) and RES (opcode 13). -/
def Instr.wellFormed : Instr → Bool
  | .addReg _ _ _ => true
  | .addImm _ _ _ => true
  | .andReg _ _ _ => true
  | .andImm _ _ _ => true
  | .notReg _ _ => true
  | .br _ _ _ _ => true
  | .jmp _ => true
  | .jsr _ => true
  | .jsrr _ => true
  | .ld _ _ => true
  | .st _ _ => true
  | .ldr _ _ _ => true
  | .str _ _ _ => true
  | .rti => false
  | .ldi _ _ => true
  | .sti _ _ => true
  | .res => false
  | .lea _ _ => true
  | .trap _ => true

end Sys2Proof
end

