-- ==== Sys2Proof/Decode.lean ====
section
/-! DEFINITION. The decoder, total on 16-bit words (rule R82), and after it the encoder and the
opcode table's masks. Every instruction is exactly one word (rule R91), and memory holds words with
no byte order (rule R51), so the decoder reads a word and not a list of bytes. The opcode values
other than 8 and 13 and the field positions are PRESUMED by the spec from the textbook LC-3
(decision D1), log entry 1. -/

namespace Sys2Proof

/-- The register a 3-bit field names (rule R85). -/
def Reg.ofBits (b : BitVec 3) : Reg :=
  match b.getLsbD 2, b.getLsbD 1, b.getLsbD 0 with
  | false, false, false => .r0
  | false, false, true => .r1
  | false, true, false => .r2
  | false, true, true => .r3
  | true, false, false => .r4
  | true, false, true => .r5
  | true, true, false => .r6
  | true, true, true => .r7

/-- The 3-bit field that names a register (rule R85). -/
def Reg.bits : Reg → BitVec 3
  | .r0 => 0#3
  | .r1 => 1#3
  | .r2 => 2#3
  | .r3 => 3#3
  | .r4 => 4#3
  | .r5 => 5#3
  | .r6 => 6#3
  | .r7 => 7#3

/-- `op`, bits 15:12 (rule R82). -/
def opcodeField (w : Word) : BitVec 4 := w.extractLsb' 12 4

/-- `DR`, and `SR` of a store: bits 11:9 (rule R85). -/
def drField (w : Word) : Reg := Reg.ofBits (w.extractLsb' 9 3)

/-- `SR1`, `SR` of NOT, and `BaseR`: bits 8:6 (rule R85). -/
def baseField (w : Word) : Reg := Reg.ofBits (w.extractLsb' 6 3)

/-- `SR2`: bits 2:0 (rule R85). -/
def sr2Field (w : Word) : Reg := Reg.ofBits (w.extractLsb' 0 3)

/-- `imm5`: bits 4:0 (rule R85). -/
def imm5Field (w : Word) : BitVec 5 := w.extractLsb' 0 5

/-- `offset6`: bits 5:0 (rule R85). -/
def offset6Field (w : Word) : BitVec 6 := w.extractLsb' 0 6

/-- `PCoffset9`: bits 8:0 (rule R85). -/
def offset9Field (w : Word) : BitVec 9 := w.extractLsb' 0 9

/-- `PCoffset11`: bits 10:0 (rule R85). -/
def offset11Field (w : Word) : BitVec 11 := w.extractLsb' 0 11

/-- `trapvect8`: bits 7:0 (rule R85). -/
def trapvectField (w : Word) : BitVec 8 := w.extractLsb' 0 8

/-- The decoder: bits 15:12 choose one of the 16 slots of rule R83; bit 5 chooses the form of ADD and
AND, and bit 11 chooses JSR or JSRR (rule R84). Bits that rule R84 marks `x` are not read (rule R88).
The words of opcodes 8 and 13 decode to `rti` and `res`, which take the fatal decode error when they
run (rules R170 and R171). -/
def decode (w : Word) : Instr :=
  match w.getLsbD 15, w.getLsbD 14, w.getLsbD 13, w.getLsbD 12 with
  | false, false, false, false =>
    .br (w.getLsbD 11) (w.getLsbD 10) (w.getLsbD 9) (offset9Field w)
  | false, false, false, true =>
    if w.getLsbD 5 then .addImm (drField w) (baseField w) (imm5Field w)
    else .addReg (drField w) (baseField w) (sr2Field w)
  | false, false, true, false => .ld (drField w) (offset9Field w)
  | false, false, true, true => .st (drField w) (offset9Field w)
  | false, true, false, false =>
    if w.getLsbD 11 then .jsr (offset11Field w) else .jsrr (baseField w)
  | false, true, false, true =>
    if w.getLsbD 5 then .andImm (drField w) (baseField w) (imm5Field w)
    else .andReg (drField w) (baseField w) (sr2Field w)
  | false, true, true, false => .ldr (drField w) (baseField w) (offset6Field w)
  | false, true, true, true => .str (drField w) (baseField w) (offset6Field w)
  | true, false, false, false => .rti
  | true, false, false, true => .notReg (drField w) (baseField w)
  | true, false, true, false => .ldi (drField w) (offset9Field w)
  | true, false, true, true => .sti (drField w) (offset9Field w)
  | true, true, false, false => .jmp (baseField w)
  | true, true, false, true => .res
  | true, true, true, false => .lea (drField w) (offset9Field w)
  | true, true, true, true => .trap (trapvectField w)

/-- Why a run of bits is no instruction of this block. -/
inductive DecodeReject where
  /-- More than 16 bits: every instruction is exactly one 16-bit word (rule R91). -/
  | longerThanOneWord
  deriving DecidableEq, Repr

/-- The decoder on a word given as a number of `nbits` bits, bit 0 the least significant. The bits
above `nbits` are 0. -/
def decodeBits (nbits w : Nat) : Except DecodeReject Instr :=
  if nbits ≤ 16 then .ok (decode (BitVec.ofNat 16 (w % 2 ^ nbits))) else .error .longerThanOneWord

/-- The decoder's answer for one row of the opcode table. -/
def decodeTableWord (nbits w : Nat) : Option Instr :=
  match decodeBits nbits w with
  | .ok i => some i
  | .error _ => none

/-- One condition bit of BR as a 1-bit field (rule R85). -/
def condBit (b : Bool) : BitVec 1 := BitVec.ofBool b

/-- A field of `n` bits placed with its lowest bit at bit `lo` of a word (rules R8, R85). -/
def placeField {n : Nat} (lo : Nat) (v : BitVec n) : Word := v.zeroExtend 16 <<< lo

/-- The encoder: the fields of rule R84, each at the place rule R85 gives it. The ignored bits get the
values the assembler of rule R97 emits: ones in bits 5:0 of NOT, zeros elsewhere (log entry 4). -/
def encode : Instr → Word
  | .addReg dr sr1 sr2 =>
    placeField 12 0b0001#4 ||| placeField 9 dr.bits ||| placeField 6 sr1.bits ||| placeField 0 sr2.bits
  | .addImm dr sr1 imm5 =>
    placeField 12 0b0001#4 ||| placeField 9 dr.bits ||| placeField 6 sr1.bits ||| placeField 5 1#1 |||
      placeField 0 imm5
  | .andReg dr sr1 sr2 =>
    placeField 12 0b0101#4 ||| placeField 9 dr.bits ||| placeField 6 sr1.bits ||| placeField 0 sr2.bits
  | .andImm dr sr1 imm5 =>
    placeField 12 0b0101#4 ||| placeField 9 dr.bits ||| placeField 6 sr1.bits ||| placeField 5 1#1 |||
      placeField 0 imm5
  | .notReg dr sr =>
    placeField 12 0b1001#4 ||| placeField 9 dr.bits ||| placeField 6 sr.bits ||| placeField 0 0b111111#6
  | .br n z p off9 =>
    placeField 12 0b0000#4 ||| placeField 11 (condBit n) ||| placeField 10 (condBit z) |||
      placeField 9 (condBit p) ||| placeField 0 off9
  | .jmp baseR => placeField 12 0b1100#4 ||| placeField 6 baseR.bits
  | .jsr off11 => placeField 12 0b0100#4 ||| placeField 11 1#1 ||| placeField 0 off11
  | .jsrr baseR => placeField 12 0b0100#4 ||| placeField 6 baseR.bits
  | .ld dr off9 => placeField 12 0b0010#4 ||| placeField 9 dr.bits ||| placeField 0 off9
  | .st sr off9 => placeField 12 0b0011#4 ||| placeField 9 sr.bits ||| placeField 0 off9
  | .ldr dr baseR off6 =>
    placeField 12 0b0110#4 ||| placeField 9 dr.bits ||| placeField 6 baseR.bits ||| placeField 0 off6
  | .str sr baseR off6 =>
    placeField 12 0b0111#4 ||| placeField 9 sr.bits ||| placeField 6 baseR.bits ||| placeField 0 off6
  | .rti => placeField 12 0b1000#4
  | .ldi dr off9 => placeField 12 0b1010#4 ||| placeField 9 dr.bits ||| placeField 0 off9
  | .sti sr off9 => placeField 12 0b1011#4 ||| placeField 9 sr.bits ||| placeField 0 off9
  | .res => placeField 12 0b1101#4
  | .lea dr off9 => placeField 12 0b1110#4 ||| placeField 9 dr.bits ||| placeField 0 off9
  | .trap vect8 => placeField 12 0b1111#4 ||| placeField 0 vect8

/-- One row of spec/opcode_table.json: the bits it fixes, and their values. -/
structure TableRow where
  mask : Word
  value : Word
  deriving DecidableEq, Repr

/-- Whether a word has the fixed bits of a row. -/
def TableRow.covers (row : TableRow) (w : Word) : Bool := w &&& row.mask == row.value

/-- The row of spec/opcode_table.json that an instruction stands for. -/
def Instr.tableRow : Instr → TableRow
  | .addReg _ _ _ => ⟨0xF020#16, 0x1000#16⟩
  | .addImm _ _ _ => ⟨0xF020#16, 0x1020#16⟩
  | .andReg _ _ _ => ⟨0xF020#16, 0x5000#16⟩
  | .andImm _ _ _ => ⟨0xF020#16, 0x5020#16⟩
  | .notReg _ _ => ⟨0xF000#16, 0x9000#16⟩
  | .br _ _ _ _ => ⟨0xF000#16, 0x0000#16⟩
  | .jmp _ => ⟨0xF000#16, 0xC000#16⟩
  | .jsr _ => ⟨0xF800#16, 0x4800#16⟩
  | .jsrr _ => ⟨0xF800#16, 0x4000#16⟩
  | .ld _ _ => ⟨0xF000#16, 0x2000#16⟩
  | .st _ _ => ⟨0xF000#16, 0x3000#16⟩
  | .ldr _ _ _ => ⟨0xF000#16, 0x6000#16⟩
  | .str _ _ _ => ⟨0xF000#16, 0x7000#16⟩
  | .rti => ⟨0xF000#16, 0x8000#16⟩
  | .ldi _ _ => ⟨0xF000#16, 0xA000#16⟩
  | .sti _ _ => ⟨0xF000#16, 0xB000#16⟩
  | .res => ⟨0xF000#16, 0xD000#16⟩
  | .lea _ _ => ⟨0xF000#16, 0xE000#16⟩
  | .trap _ => ⟨0xF000#16, 0xF000#16⟩

/-- The rows of spec/opcode_table.json, in its order. -/
def opcodeTable : List TableRow :=
  [⟨0xF020#16, 0x1000#16⟩, ⟨0xF020#16, 0x1020#16⟩, ⟨0xF020#16, 0x5000#16⟩, ⟨0xF020#16, 0x5020#16⟩, ⟨0xF000#16, 0x9000#16⟩,
   ⟨0xF000#16, 0x0000#16⟩, ⟨0xF000#16, 0xC000#16⟩, ⟨0xF800#16, 0x4800#16⟩, ⟨0xF800#16, 0x4000#16⟩, ⟨0xF000#16, 0x2000#16⟩,
   ⟨0xF000#16, 0x3000#16⟩, ⟨0xF000#16, 0x6000#16⟩, ⟨0xF000#16, 0x7000#16⟩, ⟨0xF000#16, 0x8000#16⟩, ⟨0xF000#16, 0xA000#16⟩,
   ⟨0xF000#16, 0xB000#16⟩, ⟨0xF000#16, 0xD000#16⟩, ⟨0xF000#16, 0xE000#16⟩, ⟨0xF000#16, 0xF000#16⟩]

/-- The bits of an instruction's format that rule R84 does not mark `x`. -/
def Instr.usedBits : Instr → Word
  | .addReg _ _ _ => 0xFFE7#16
  | .addImm _ _ _ => 0xFFFF#16
  | .andReg _ _ _ => 0xFFE7#16
  | .andImm _ _ _ => 0xFFFF#16
  | .notReg _ _ => 0xFFC0#16
  | .br _ _ _ _ => 0xFFFF#16
  | .jmp _ => 0xF1C0#16
  | .jsr _ => 0xFFFF#16
  | .jsrr _ => 0xF9C0#16
  | .ld _ _ => 0xFFFF#16
  | .st _ _ => 0xFFFF#16
  | .ldr _ _ _ => 0xFFFF#16
  | .str _ _ _ => 0xFFFF#16
  | .rti => 0xF000#16
  | .ldi _ _ => 0xFFFF#16
  | .sti _ _ => 0xFFFF#16
  | .res => 0xF000#16
  | .lea _ _ => 0xFFFF#16
  | .trap _ => 0xF0FF#16

end Sys2Proof
end

