-- ==== Sys2Proof/Config.lean ====
section
/-! DEFINITION. The block's parameters (rule R7). A parameter to which rule R7 gives a value has
that value here. A parameter that rule R7 leaves OPEN is an opaque constant: nothing can be proved
about its value. -/

namespace Sys2Proof.Config

/-- `PC_START`, the fixed start address (rules R7, R37). -/
def pcStart : Word := 0x3000#16

/-- `MEMSIZE`, the number of memory words (rules R7, R50). -/
def memSize : Nat := 65536

/-- `KBSR_ADDR` (rules R7, R55). PRESUMED by the spec from the textbook LC-3 (decision D2), log entry 2. -/
def kbsrAddr : Word := 0xFE00#16

/-- `KBDR_ADDR` (rules R7, R55). PRESUMED by the spec from the textbook LC-3 (decision D2), log entry 2. -/
def kbdrAddr : Word := 0xFE02#16

/-- `KBSR_READY` (rules R7, R57). DESIGN CHOICE of the spec for bits 14:0 (decision D3), log entry 3. -/
def kbsrReady : Word := 0x8000#16

/-- `STRING_READ_POLLS` (rule R7). DESIGN CHOICE of the spec (decision D7), log entry 7. -/
def stringReadPolls : Bool := true

/-- `JSRR_LINK_FIRST` (rule R7). DESIGN CHOICE of the spec (decision D5), log entry 5. -/
def jsrrLinkFirst : Bool := true

/-- `FATAL_EXIT_CODE` (rules R7, R45). -/
def fatalExitCode : Int := 3

/-- `IN_PROMPT`, OPEN (rules R7, R155, decision D12): the bytes the IN service writes before it
waits. Free: log entry 10. -/
opaque inPrompt : List Byte

/-- `HALT_BANNER`, OPEN (rules R7, R157, decision D13): the bytes the HALT service writes, possibly
none. Free: log entry 10. -/
opaque haltBanner : List Byte

/-- `HALT_EXIT_CODE`, OPEN (rules R7, R45, decision D14). Free: log entry 10. -/
opaque haltExitCode : Int

/-- `INTERRUPT_EXIT_CODE`, OPEN (rules R7, R45, decision D14). Free: log entry 10. -/
opaque interruptExitCode : Int

end Sys2Proof.Config
end

