-- ==== Sys2Proof/Machine/State.lean ====
section
/-! DEFINITION. The whole state of the block, `(x[0..7], pc, cond, M, run, wait, inq, outq)`
(10_state.md), as plain data; the reasons a step can stop; and the state after reset (rule R37). -/

namespace Sys2Proof.Machine

/-- The register file: eight 16-bit general registers, none hard-wired (rule R20). -/
structure RegFile where
  r0 : Word
  r1 : Word
  r2 : Word
  r3 : Word
  r4 : Word
  r5 : Word
  r6 : Word
  r7 : Word
  deriving DecidableEq, Repr

/-- The condition flag: exactly one of NEGATIVE, ZERO and POSITIVE (rule R25, decision D20). -/
inductive Cond where
  | n | z | p
  deriving DecidableEq, Repr

/-- The memory `M` as a list of (address, word) cells. The spec's memory holds 16-bit words and has no
byte order (rules R50 and R51), so a cell holds a word. An unlisted address reads 0x0000, the reset
value of every cell (rules R37, R182). Log entry 14. -/
abbrev Memory := List (Nat × Word)

/-- `run` (rule R30). -/
inductive RunState where
  /-- Before execution, while images may be loaded. -/
  | loading
  /-- Steps are being taken. -/
  | running
  /-- The HALT service ended the run. -/
  | halted
  /-- A fatal decode error on this opcode value ended the run. -/
  | fatal (op : BitVec 4)
  /-- An external interrupt ended the run. -/
  | interrupted
  deriving DecidableEq, Repr

/-- `wait` (rule R33). -/
inductive WaitState where
  | none | getcWait | inWait
  deriving DecidableEq, Repr

/-- Everything the spec gives the block. -/
@[ext]
structure State where
  /-- `x[0]`…`x[7]` (rule R20). -/
  regs : RegFile
  /-- The program counter (rule R23). -/
  pc : Word
  /-- The condition flag (rule R25). -/
  cond : Cond
  /-- The memory, with the KBSR and KBDR cells (rule R35). -/
  mem : Memory
  /-- The run state (rule R30). -/
  run : RunState
  /-- The wait state of a GETC or IN trap (rule R33). -/
  wait : WaitState
  /-- The console input not yet consumed, oldest first (rule R31). -/
  inq : List Byte
  /-- The console output, oldest first (rule R32). -/
  outq : List Byte
  deriving DecidableEq, Repr

/-- Why no next state exists. Each is safe: the spec enables no transition there. -/
inductive Fault where
  /-- `step` while `run = Loading`: the run has not been started (rules R80, R43). Raised by
  `blockStep`. Safe: rule R80 enables no step. -/
  | notStarted
  /-- `step` in a terminal run state (rule R30). Raised by `blockStep`. Safe: rule R30 enables no step. -/
  | runEnded
  /-- `step` while GETC or IN waits and `inq` is empty (rules R33, R152, R155). Raised by
  `completeGetc` and `completeIn`. Safe: the block has no step until the host appends a byte. -/
  | awaitingInput
  /-- The `Hang` of rule R154: a PUTS or PUTSP scan that never meets a zero word. Raised by
  `serviceString`. Safe: the scan never ends. -/
  | hang
  /-- A host action that its rule does not enable (rules R42, R43, R44, R47). Raised by `transition`.
  Safe: the action does not happen. -/
  | actionNotEnabled
  deriving DecidableEq, Repr

/-- Why an instruction has no meaning. Raised by no arm of this model. -/
inductive Refusal where
  /-- An instruction with no meaning yet, by its mnemonic. Raised only by `exec`'s refused arms, and
  there are none. Safe. -/
  | notModelled (mnemonic : String)
  deriving DecidableEq, Repr

/-- The state when the process starts (rules R37, R200). `inq` is the host's (rule R37); here it is
empty, DESIGN CHOICE, log entry 13. -/
def State.reset : State where
  regs := ⟨0#16, 0#16, 0#16, 0#16, 0#16, 0#16, 0#16, 0#16⟩
  pc := Config.pcStart
  cond := .z
  mem := []
  run := .loading
  wait := .none
  inq := []
  outq := []

end Sys2Proof.Machine
end

