-- ==== Sys2Proof/Machine/Flags.lean ====
section
/-! DEFINITION. The condition flag: how a value sets it (rule R26) and how BR tests it (rule R120). -/

namespace Sys2Proof.Machine

/-- The flag of a value: zero gives Z, bit 15 set gives N, anything else gives P (rule R26). -/
def condOf (v : Word) : Cond := if v = 0#16 then .z else if v.msb then .n else .p

/-- `setcc(v)` (rules R14, R26). -/
def State.setcc (s : State) (v : Word) : State := { s with cond := condOf v }

/-- Whether an asserted condition bit of BR matches the flag (rule R120). -/
def Cond.matched (c : Cond) (n z p : Bool) : Bool :=
  match c with
  | .n => n
  | .z => z
  | .p => p

end Sys2Proof.Machine
end

