-- ==== Sys2Proof/Machine/Operands.lean ====
section
/-! DEFINITION. Every operand form (rules R86 and R87) and the conversions between fields, bytes and
words (rules R9, R10 and R51). -/

namespace Sys2Proof.Machine

/-- `sext_N(v)`: an N-bit field as a 16-bit word, its bits above N-1 equal to its top bit (rule R9). -/
def sext {n : Nat} (v : BitVec n) : Word := v.signExtend 16

/-- `zext_16(b)`: a console byte as a word (rule R10). DESIGN CHOICE of the spec (decision D16), log entry 9. -/
def zext16 (b : Byte) : Word := b.zeroExtend 16

/-- `w[7:0]` (rules R51, R153, R154). -/
def lowByte (w : Word) : Byte := w.extractLsb' 0 8

/-- `w[15:8]` (rule R156). -/
def highByte (w : Word) : Byte := w.extractLsb' 8 8

/-- One word from two bytes of an image, the first byte in bits 15:8 (rule R63). -/
def bigEndianWord (first second : Byte) : Word := first ++ second

/-- `x[i]` as an operand (rule R87). -/
def RegFile.get (f : RegFile) : Reg → Word
  | .r0 => f.r0
  | .r1 => f.r1
  | .r2 => f.r2
  | .r3 => f.r3
  | .r4 => f.r4
  | .r5 => f.r5
  | .r6 => f.r6
  | .r7 => f.r7

/-- `x[i] <- v` on the register file (rule R12). -/
def RegFile.set (f : RegFile) (r : Reg) (v : Word) : RegFile :=
  match r with
  | .r0 => { f with r0 := v }
  | .r1 => { f with r1 := v }
  | .r2 => { f with r2 := v }
  | .r3 => { f with r3 := v }
  | .r4 => { f with r4 := v }
  | .r5 => { f with r5 := v }
  | .r6 => { f with r6 := v }
  | .r7 => { f with r7 := v }

/-- `x[i]` (rule R12). -/
def State.reg (s : State) (r : Reg) : Word := s.regs.get r

/-- A PC-relative address: the post-increment `pc` plus the extended offset, modulo 2^16 (rule R87). -/
def State.pcRelative {n : Nat} (s : State) (off : BitVec n) : Word := s.pc + sext off

/-- A base+offset address, modulo 2^16 (rule R87). -/
def State.baseOffset (s : State) (baseR : Reg) (off6 : BitVec 6) : Word := s.reg baseR + sext off6

end Sys2Proof.Machine
end

