-- ==== Sys2Proof/Machine/Ops.lean ====
section
/-! DEFINITION. The named operations over registers, memory and the console that every meaning is
written with, among them the taking of the one exception. -/

namespace Sys2Proof.Machine

/-! ## The storage cells -/

/-- `M[a]` (rule R12): an unlisted address reads 0x0000 (rules R37, R182). -/
def Memory.readAt : Memory → Nat → Word
  | [], _ => 0#16
  | (k, v) :: m, a => if k = a then v else Memory.readAt m a

/-- The cell at one address. -/
def Memory.read (m : Memory) (a : Word) : Word := m.readAt a.toNat

/-- The memory without an entry at one address. -/
def Memory.erase (m : Memory) (a : Nat) : Memory := m.filter fun c => c.1 != a

/-- The memory with an entry put before the first higher address. -/
def Memory.insert (m : Memory) (a : Nat) (v : Word) : Memory :=
  match m with
  | [] => [(a, v)]
  | (k, w) :: rest => if a < k then (a, v) :: (k, w) :: rest else (k, w) :: Memory.insert rest a v

/-- `M[a] <- v` (rule R12). Writing the value an unlisted address reads as removes the entry. -/
def Memory.write (m : Memory) (a : Word) (v : Word) : Memory :=
  if v = 0#16 then m.erase a.toNat else (m.erase a.toNat).insert a.toNat v

/-- The canonical form of a memory: addresses strictly rising and below 65,536 (rule R50), and no
entry equal to what an unlisted address reads as. -/
abbrev Memory.wf (m : Memory) : Prop :=
  m.Pairwise (fun c d => c.1 < d.1) ∧ ∀ c ∈ m, c.1 < Config.memSize ∧ c.2 ≠ 0#16

/-! ## Registers and control state -/

/-- `x[i] <- v` (rule R12). It does not touch the flag. -/
def State.setReg (s : State) (r : Reg) (v : Word) : State := { s with regs := s.regs.set r v }

/-- `pc <- t` (rule R12). -/
def State.setPc (s : State) (t : Word) : State := { s with pc := t }

/-- `run <- r` (rule R30). -/
def State.setRun (s : State) (r : RunState) : State := { s with run := r }

/-- `wait <- w` (rule R33). -/
def State.setWait (s : State) (w : WaitState) : State := { s with wait := w }

/-- `x[DR] <- v; setcc(v)`, the end of every flag-setting instruction (rules R26, R27). -/
def State.writeResult (s : State) (dr : Reg) (v : Word) : State := (s.setReg dr v).setcc v

/-! ## The console port -/

/-- `ConsoleOut` of some bytes in order (rule R16). -/
def State.consoleOut (s : State) (bs : List Byte) : State := { s with outq := s.outq ++ bs }

/-- `ConsoleIn()`: the head of `inq` and the state without it, enabled only when `inq` is non-empty (rule R16). -/
def State.consoleIn (s : State) : Option (Byte × State) :=
  match s.inq with
  | [] => none
  | b :: rest => some (b, { s with inq := rest })

/-- `KeyAvailable()` (rule R16). -/
def State.keyAvailable (s : State) : Bool := !s.inq.isEmpty

/-! ## Memory accesses -/

/-- `MemWrite(a, 16, v)`: a plain store at every address (rule R54). -/
def State.memWrite (s : State) (a v : Word) : State := { s with mem := s.mem.write a v }

/-- The side effect of a KBSR read (rule R52): with input, KBSR becomes ready and the head of `inq`
moves to KBDR; without, KBSR becomes 0. So the read of KBSR also writes it, as rules R52 and R56 say
and rule R70 denies: DESIGN CHOICE, log entry 23. -/
def State.poll (s : State) : State :=
  match s.consoleIn with
  | some (b, s') => (s'.memWrite Config.kbsrAddr Config.kbsrReady).memWrite Config.kbdrAddr (zext16 b)
  | none => s.memWrite Config.kbsrAddr 0#16

/-- The state a read of one address leaves: only a KBSR read changes anything (rules R52, R53). -/
def State.afterRead (s : State) (a : Word) : State := if a = Config.kbsrAddr then s.poll else s

/-- The word a read of one address returns: the possibly just-updated cell (rule R52). -/
def State.readValue (s : State) (a : Word) : Word := (s.afterRead a).mem.read a

/-- `MemRead(a, 16)` (rule R52): the word read, and the state the read leaves. -/
def memRead (a : Word) (s : State) : Word × State := (s.readValue a, s.afterRead a)

/-- `StrRead(a)` of PUTS and PUTSP (rule R154): `MemRead` when `polls`, else the plain cell. -/
def strRead (polls : Bool) (a : Word) (s : State) : Word × State :=
  if polls then memRead a s else (s.mem.read a, s)

/-! ## Exception and trap entry

The one exception is `InvalidOpcode`. It has no handler, no vector and no return (rules R181, R187):
it ends the run. A TRAP saves the return address in `x[7]` and changes no mode or mask (rule R186).
Its return is no operation: execution goes on at `pc` (rule R187). -/

/-- Taking `InvalidOpcode(op)`: `run <- Fatal(op)`, and nothing else is written (rules R15, R181). -/
def raiseInvalidOpcode (op : BitVec 4) (s : State) : State := s.setRun (.fatal op)

/-- Saving the return address, the post-increment `pc`, in `x[7]`: the link write of JSR, JSRR and
TRAP (rules R122, R123, R186). The flag is not updated (rule R27). -/
def State.link (s : State) : State := s.setReg .r7 s.pc

end Sys2Proof.Machine
end

