-- ==== Sys2Proof/Machine/Control.lean ====
section
/-! DEFINITION. The control transfers BR, JMP, JSR and JSRR (41_control.md). None writes the flag. -/

namespace Sys2Proof.Machine

/-- BR: taken when an asserted condition bit matches the flag (rule R120). -/
def execBr (n z p : Bool) (off9 : BitVec 9) (s : State) : Host.Outcome State Fault Refusal :=
  .next (if s.cond.matched n z p then s.setPc (s.pcRelative off9) else s)

/-- JMP, and RET when the base is R7 (rule R121). -/
def execJmp (baseR : Reg) (s : State) : Host.Outcome State Fault Refusal :=
  .next (s.setPc (s.reg baseR))

/-- JSR (rule R122). -/
def execJsr (off11 : BitVec 11) (s : State) : Host.Outcome State Fault Refusal :=
  .next (s.link.setPc (s.pcRelative off11))

/-- JSRR with the order of its two statements as a parameter: the link is written before the base
is read when `linkFirst`, after it otherwise (rule R123, decision D5). -/
def jumpLinkRegister (linkFirst : Bool) (baseR : Reg) (s : State) : State :=
  s.link.setPc (if linkFirst then s.link.reg baseR else s.reg baseR)

/-- JSRR (rule R123). -/
def execJsrr (baseR : Reg) (s : State) : Host.Outcome State Fault Refusal :=
  .next (jumpLinkRegister Config.jsrrLinkFirst baseR s)

end Sys2Proof.Machine
end

