-- ==== Sys2Proof/Machine/Invalid.lean ====
section
/-! DEFINITION. The two opcodes without a handler (45_invalid.md): each takes the one exception of
the block, which ends the run (rule R181). -/

namespace Sys2Proof.Machine

/-- RTI, opcode 8 (rule R170). -/
def execRti (s : State) : Host.Outcome State Fault Refusal := .next (raiseInvalidOpcode 8#4 s)

/-- RES, the reserved opcode 13 (rule R171). -/
def execRes (s : State) : Host.Outcome State Fault Refusal := .next (raiseInvalidOpcode 13#4 s)

end Sys2Proof.Machine
end

