-- ==== Sys2Proof/Machine/Load.lean ====
section
/-! DEFINITION. The loads LD, LDI and LDR, and LEA (42_load.md). Every read is `MemRead` (rule R52). -/

namespace Sys2Proof.Machine

/-- `x[DR] <- MemRead(ea, 16); setcc(x[DR])`, the end of every load. -/
def loadInto (dr : Reg) (ea : Word) (s : State) : State :=
  let (v, s') := memRead ea s
  s'.writeResult dr v

/-- LD (rule R130). -/
def execLd (dr : Reg) (off9 : BitVec 9) (s : State) : Host.Outcome State Fault Refusal :=
  .next (loadInto dr (s.pcRelative off9) s)

/-- LDI: the pointer read, then the data read (rule R131). -/
def execLdi (dr : Reg) (off9 : BitVec 9) (s : State) : Host.Outcome State Fault Refusal :=
  let (ptr, s') := memRead (s.pcRelative off9) s
  .next (loadInto dr ptr s')

/-- LDR (rule R132). -/
def execLdr (dr baseR : Reg) (off6 : BitVec 6) (s : State) : Host.Outcome State Fault Refusal :=
  .next (loadInto dr (s.baseOffset baseR off6) s)

/-- LEA: no memory access (rule R133). -/
def execLea (dr : Reg) (off9 : BitVec 9) (s : State) : Host.Outcome State Fault Refusal :=
  .next (s.writeResult dr (s.pcRelative off9))

end Sys2Proof.Machine
end

