-- ==== Sys2Proof/Machine/Store.lean ====
section
/-! DEFINITION. The stores ST, STI and STR (43_store.md). Every write is `MemWrite` (rule R54). A store
may go to a cell that its own step has read. Rule R70 says that no instruction reads and writes the
same cell in one step, rules R140 and R141 allow it, and the model follows those: DESIGN CHOICE, log
entry 23. -/

namespace Sys2Proof.Machine

/-- ST (rule R140). The store may overwrite the word just fetched. DESIGN CHOICE against rule R70, log
entry 23. -/
def execSt (sr : Reg) (off9 : BitVec 9) (s : State) : Host.Outcome State Fault Refusal :=
  .next (s.memWrite (s.pcRelative off9) (s.reg sr))

/-- STI: the pointer read, then the store (rule R141). A pointer cell that holds its own address is
overwritten in the step that reads it. DESIGN CHOICE against rule R70, log entry 23. -/
def execSti (sr : Reg) (off9 : BitVec 9) (s : State) : Host.Outcome State Fault Refusal :=
  let (ptr, s') := memRead (s.pcRelative off9) s
  .next (s'.memWrite ptr (s'.reg sr))

/-- STR (rule R142). The store may overwrite the word just fetched. DESIGN CHOICE against rule R70, log
entry 23. -/
def execStr (sr baseR : Reg) (off6 : BitVec 6) (s : State) : Host.Outcome State Fault Refusal :=
  .next (s.memWrite (s.baseOffset baseR off6) (s.reg sr))

end Sys2Proof.Machine
end

