-- ==== Sys2Proof/Machine/Trap.lean ====
section
/-! DEFINITION. TRAP, the trap dispatcher and the six services (44_trap.md). A service runs in the
TRAP's own step, except that GETC and IN end in a second step, their completion, once input is there. -/

namespace Sys2Proof.Machine

/-- The services of the trap dispatcher (rule R151). -/
inductive TrapService where
  | getc | out | puts | input | putsp | halt | undefinedVector
  deriving DecidableEq, Repr

/-- `Service(v)` chooses by the 8-bit vector (rule R151). -/
def serviceOf (v : BitVec 8) : TrapService :=
  if v = 0x20#8 then .getc
  else if v = 0x21#8 then .out
  else if v = 0x22#8 then .puts
  else if v = 0x23#8 then .input
  else if v = 0x24#8 then .putsp
  else if v = 0x25#8 then .halt
  else .undefinedVector

/-! ## The string scan of PUTS and PUTSP -/

/-- The bytes PUTS writes for one non-zero word: bits 7:0 (rule R154). DESIGN CHOICE of the spec
(decision D6), log entry 6. -/
def putsBytes (w : Word) : List Byte := [lowByte w]

/-- The bytes PUTSP writes for one non-zero word: bits 7:0 always, then bits 15:8 unless they are
zero (rule R156). The low byte is DESIGN CHOICE of the spec (decision D23), log entry 6. -/
def putspBytes (w : Word) : List Byte :=
  if highByte w = 0#8 then [lowByte w] else [lowByte w, highByte w]

/-- The loop of rules R154 and R156 from the address `a`, with a bound on the words it reads. It ends
at the first zero word. `none` says that the bound was reached first. -/
def scanString (polls : Bool) (bytes : Word → List Byte) : Nat → Word → State → Option State
  | 0, _, _ => none
  | fuel + 1, a, s =>
    let (w, s') := strRead polls a s
    if w = 0#16 then some s' else scanString polls bytes fuel (a + 1#16) (s'.consoleOut (bytes w))

/-- A bound that a scan which ends never reaches: 65,536 words for each byte of `inq` and one time
more. A state-changing KBSR poll consumes a byte of `inq`, so a scan that reads this many words has
read 65,536 consecutive words with no zero and no such poll, the `Hang` of rule R154 (decision D8,
log entry 8). -/
def scanBound (s : State) : Nat := Config.memSize * (s.inq.length + 1)

/-- PUTS or PUTSP from `x[0]`: the whole string in one step, or `Hang` (rules R154, R156). -/
def serviceString (polls : Bool) (bytes : Word → List Byte) (s : State) :
    Host.Outcome State Fault Refusal :=
  match scanString polls bytes (scanBound s) (s.reg .r0) s with
  | some s' => .next s'
  | none => .fault .hang

/-! ## The services -/

/-- GETC, phase 1: wait for a byte (rule R152). -/
def serviceGetc (s : State) : State := s.setWait .getcWait

/-- OUT: bits 7:0 of `x[0]` (rule R153). -/
def serviceOut (s : State) : State := s.consoleOut [lowByte (s.reg .r0)]

/-- PUTS (rule R154). -/
def servicePuts (s : State) : Host.Outcome State Fault Refusal :=
  serviceString Config.stringReadPolls putsBytes s

/-- IN, phase 1: the prompt, then wait for a byte (rule R155). -/
def serviceInput (s : State) : State := (s.consoleOut Config.inPrompt).setWait .inWait

/-- PUTSP (rule R156). -/
def servicePutsp (s : State) : Host.Outcome State Fault Refusal :=
  serviceString Config.stringReadPolls putspBytes s

/-- HALT: the banner, then the end of the run (rule R157). -/
def serviceHalt (s : State) : State := (s.consoleOut Config.haltBanner).setRun .halted

/-- The trap dispatcher (rule R151). A vector without a service does nothing (rule R158). -/
def runService (v : BitVec 8) (s : State) : Host.Outcome State Fault Refusal :=
  match serviceOf v with
  | .getc => .next (serviceGetc s)
  | .out => .next (serviceOut s)
  | .puts => servicePuts s
  | .input => .next (serviceInput s)
  | .putsp => servicePutsp s
  | .halt => .next (serviceHalt s)
  | .undefinedVector => .next s

/-- TRAP: the return address into `x[7]`, then the service; `pc` is not written (rule R150). -/
def execTrap (vect8 : BitVec 8) (s : State) : Host.Outcome State Fault Refusal :=
  runService vect8 s.link

/-! ## The completion steps of GETC and IN -/

/-- The completion of GETC, enabled only when `inq` is non-empty (rule R152). -/
def completeGetc (s : State) : Host.Outcome State Fault Refusal :=
  match s.consoleIn with
  | some (b, s') => .next ((s'.writeResult .r0 (zext16 b)).setWait .none)
  | none => .fault .awaitingInput

/-- The completion of IN, with the echo, enabled only when `inq` is non-empty (rule R155). -/
def completeIn (s : State) : Host.Outcome State Fault Refusal :=
  match s.consoleIn with
  | some (b, s') => .next (((s'.consoleOut [b]).writeResult .r0 (zext16 b)).setWait .none)
  | none => .fault .awaitingInput

end Sys2Proof.Machine
end

