-- ==== Sys2Proof/Machine/Cycle.lean ====
section
/-! DEFINITION. The instruction cycle (30_encoding.md): fetch and increment, decode, dispatch; and when
a block step is enabled at all. -/

namespace Sys2Proof.Machine

/-- Fetch: `instr <- MemRead(pc, 16); pc <- pc + 1`, modulo 2^16 (rule R81). -/
def fetch (s : State) : Word × State :=
  let (instr, s') := memRead s.pc s
  (instr, s'.setPc (s.pc + 1#16))

/-- Fetch, decode and dispatch (rule R80). -/
def instructionStep (s : State) : Host.Outcome State Fault Refusal :=
  let (instr, s') := fetch s
  exec (decode instr) s'

/-- The block's step. A step is enabled when `run = Running` and `wait = None` (rule R80); while a GETC
or IN waits, the only step is its completion (rule R33); before `start` and in a terminal run state
there is none (rule R30). -/
def blockStep (s : State) : Host.Outcome State Fault Refusal :=
  match s.run with
  | .loading => .fault .notStarted
  | .running =>
    match s.wait with
    | .none => instructionStep s
    | .getcWait => completeGetc s
    | .inWait => completeIn s
  | .halted => .fault .runEnded
  | .fatal _ => .fault .runEnded
  | .interrupted => .fault .runEnded

/-- The state with an instruction word where the next step fetches, the run started and no trap
waiting. No word can be placed at KBSR, which a fetch overwrites (rule R57), so a `pc` there is first
moved to `PC_START` (log entry 15). -/
def placeInstruction (s : State) (w : Word) : State :=
  let pc := if s.pc = Config.kbsrAddr then Config.pcStart else s.pc
  { s with pc := pc, mem := s.mem.write pc w, run := .running, wait := .none }

end Sys2Proof.Machine
end

