-- ==== Sys2Proof/Machine/Step.lean ====
section
/-! DEFINITION. One step of the block, and the placing of an instruction where it fetches. -/

namespace Sys2Proof.Machine

/-- One step of the block (rule R80; rules R152 and R155 for a completion). -/
def step (s : State) : Host.Outcome State Fault Refusal := blockStep s

/-- The state with the instruction of `nbits` bits `w` stored where `step` fetches next, and running.
It stands for the image load and the `start` of rule R201 (log entry 15). -/
def State.withFetchWord (s : State) (nbits w : Nat) : State :=
  placeInstruction s (BitVec.ofNat 16 (w % 2 ^ nbits))

end Sys2Proof.Machine
end

