-- ==== Sys2Proof/Machine/HostPort.lean ====
section
/-! DEFINITION. The host's side of the block's interface: the load port (20_memory.md, section 4), and
the host actions `start`, `interrupt` and the delivery of input (10_state.md, section 8). An action
answers `none` where its rule does not enable it. -/

namespace Sys2Proof.Machine

/-! ## The image loader -/

/-- The words of an image after its origin, big-endian, an odd last byte ignored (rules R62, R63). The
odd byte is DESIGN CHOICE of the spec (decision D15), log entry 16. -/
def imageWords : List Byte → List Word
  | first :: second :: rest => bigEndianWord first second :: imageWords rest
  | _ => []

/-- The origin of an image and its words, none if it is shorter than two bytes (rule R62). -/
def parseImage : List Byte → Option (Word × List Word)
  | first :: second :: rest => some (bigEndianWord first second, imageWords rest)
  | _ => none

/-- The words a load writes: those from the origin up to address 0xFFFF (rule R62: a load never wraps). -/
def loadedWords (origin : Word) (ws : List Word) : List Word :=
  ws.take (Config.memSize - origin.toNat)

/-- Plain stores of consecutive words (rule R62). -/
def storeWords (m : Memory) (a : Word) : List Word → Memory
  | [] => m
  | w :: ws => storeWords (m.write a w) (a + 1#16) ws

/-- The memory after `Load(bytes)` (rule R62). -/
def loadImage (bytes : List Byte) (m : Memory) : Memory :=
  match parseImage bytes with
  | none => m
  | some (origin, ws) => storeWords m origin (loadedWords origin ws)

/-- The `(origin, count)` that `Load(bytes)` returns (rule R62). -/
def loadReport (bytes : List Byte) : Option Word × Nat :=
  match parseImage bytes with
  | none => (none, 0)
  | some (origin, ws) => (some origin, (loadedWords origin ws).length)

/-! ## The host actions -/

/-- What the host can do to the block (rules R42, R43, R44, R47). -/
inductive HostAction where
  /-- Load one image. -/
  | load (bytes : List Byte)
  /-- Start the run. -/
  | start
  /-- The external interrupt. -/
  | interrupt
  /-- Append bytes to the tail of `inq`. -/
  | deliver (bytes : List Byte)
  deriving DecidableEq, Repr

/-- `Load(bytes)`: only while loading, and it writes only `M` (rules R42, R62, R64). -/
def hostLoad (bytes : List Byte) (s : State) : Option State :=
  if s.run = .loading then some { s with mem := loadImage bytes s.mem } else none

/-- `start`: from Loading to Running, and nothing else (rule R43). -/
def hostStart (s : State) : Option State :=
  if s.run = .loading then some (s.setRun .running) else none

/-- `interrupt`: only between two instructions; it ends the run and changes nothing else (rule R44). -/
def hostInterrupt (s : State) : Option State :=
  if s.run = .running ∧ s.wait = .none then some (s.setRun .interrupted) else none

/-- The delivery of input: at any point between block steps while running (rule R47), and before the
run (rule R31, log entry 17); not after its end. -/
def hostDeliver (bytes : List Byte) (s : State) : Option State :=
  if s.run = .loading ∨ s.run = .running then some { s with inq := s.inq ++ bytes } else none

/-- A host action, where it is enabled. -/
def hostAct : HostAction → State → Option State
  | .load bytes, s => hostLoad bytes s
  | .start, s => hostStart s
  | .interrupt, s => hostInterrupt s
  | .deliver bytes, s => hostDeliver bytes s

/-- The boot of rule R201: the image loads in order, then `start`. -/
def boot : List (List Byte) → State → Option State
  | [], s => hostStart s
  | image :: images, s =>
    match hostLoad image s with
    | some s' => boot images s'
    | none => none

/-- The exit code the surrounding software gives for a terminal run state (rule R45). The codes of
Halted and Interrupted are OPEN (log entry 10). -/
def exitCode : RunState → Option Int
  | .loading => none
  | .running => none
  | .halted => some Config.haltExitCode
  | .fatal _ => some Config.fatalExitCode
  | .interrupted => some Config.interruptExitCode

end Sys2Proof.Machine
end

