-- ==== Sys2Proof/Machine/Environment.lean ====
section
/-! DEFINITION. The block together with its host: a run is a sequence of atomic transitions, block
steps and host actions in any order (rules R40, R185). -/

namespace Sys2Proof.Machine

/-- One transition: a step of the block, or an action of the host (rule R40). -/
inductive Event where
  | block
  | host (a : HostAction)
  deriving DecidableEq, Repr

/-- What a transition does. A host action that is not enabled does not happen. -/
def transition (e : Event) (s : State) : Host.Outcome State Fault Refusal :=
  match e with
  | .block => step s
  | .host a =>
    match hostAct a s with
    | some s' => .next s'
    | none => .fault .actionNotEnabled

end Sys2Proof.Machine
end

