-- ==== Sys2Proof/Safety.lean ====
section
/-! DEFINITION. What a good state, a terminal state and a reachable state are: the terms in which
claims over whole runs are stated. -/

namespace Sys2Proof.Machine

/-- The run has ended (rule R30). -/
def RunState.terminal : RunState → Bool
  | .loading => false
  | .running => false
  | .halted => true
  | .fatal _ => true
  | .interrupted => true

/-- What holds of every state of a run, whatever the host does. -/
structure State.Inv (s : State) : Prop where
  /-- The memory is canonical. -/
  mem_wf : s.mem.wf
  /-- A fatal decode error is on opcode 8 or 13 (rule R180). -/
  fatal_op : ∀ op, s.run = .fatal op → op = 8#4 ∨ op = 13#4
  /-- Only a running block waits (rules R33, R44). -/
  wait_running : s.wait ≠ .none → s.run = .running
  /-- While images are loaded, everything but `M` and `inq` is as reset leaves it (rules R37, R64). -/
  loading_reset : s.run = .loading →
    s.regs = State.reset.regs ∧ s.pc = Config.pcStart ∧ s.cond = .z ∧ s.outq = []

/-- The states that runs reach: from reset, with any input delivered before (rule R37), by any
transitions (rule R40). -/
inductive Reachable : State → Prop where
  | reset (delivered : List Byte) : Reachable { State.reset with inq := delivered }
  | next {s t : State} (e : Event) : Reachable s → transition e s = .next t → Reachable t

/-- Two states agree on every cell of memory. -/
def SameMem (s t : State) : Prop := ∀ a : Word, t.mem.read a = s.mem.read a

/-- Two states agree on every cell of memory but those the addresses name. -/
def SameMemExcept (cells : List Word) (s t : State) : Prop :=
  ∀ a : Word, a ∉ cells → t.mem.read a = s.mem.read a

/-- Two states agree on every general register but those named. -/
def SameRegsExcept (rs : List Reg) (s t : State) : Prop := ∀ r, r ∉ rs → t.reg r = s.reg r

/-- Two states agree on the console queues. -/
def SameConsole (s t : State) : Prop := t.inq = s.inq ∧ t.outq = s.outq

/-- Two states agree on the run state and the wait state. -/
def SameControl (s t : State) : Prop := t.run = s.run ∧ t.wait = s.wait

/-- `v` written to `x[dr]`, the flag set from it, and nothing else changed: the whole effect of an
instruction that computes a register's value without memory (rules R21, R26, R27). -/
def RegisterResult (dr : Reg) (v : Word) (s t : State) : Prop :=
  t.reg dr = v ∧ t.cond = condOf v ∧ SameRegsExcept [dr] s t ∧ t.pc = s.pc ∧ SameMem s t ∧
    SameControl s t ∧ SameConsole s t

/-- What `MemRead(a, 16)` answers and does to memory and `inq` (rules R52, R53): `v` is the word read
and `t` the state after it. The three clauses are a read off KBSR, a KBSR read that finds no input,
and a KBSR read that finds input. -/
def ReadEffect (a v : Word) (s t : State) : Prop :=
  (a ≠ Config.kbsrAddr → v = s.mem.read a ∧ SameMem s t ∧ t.inq = s.inq) ∧
  (a = Config.kbsrAddr → s.inq = [] →
    v = 0#16 ∧ t.mem.read Config.kbsrAddr = 0#16 ∧ SameMemExcept [Config.kbsrAddr] s t ∧ t.inq = []) ∧
  (∀ b rest, a = Config.kbsrAddr → s.inq = b :: rest →
    v = Config.kbsrReady ∧ t.mem.read Config.kbsrAddr = Config.kbsrReady ∧
    t.mem.read Config.kbdrAddr = zext16 b ∧
    SameMemExcept [Config.kbsrAddr, Config.kbdrAddr] s t ∧ t.inq = rest)

/-- `v` loaded into `x[dr]` from the address `a`: the effect of a read in the state `s`, the register
and the flag written, and nothing else changed (rules R130 to R132). -/
def LoadResult (dr : Reg) (a v : Word) (s t : State) : Prop :=
  ReadEffect a v s t ∧ t.reg dr = v ∧ t.cond = condOf v ∧ SameRegsExcept [dr] s t ∧ t.pc = s.pc ∧
    SameControl s t ∧ t.outq = s.outq

/-- `v` stored at the address `a`, and nothing else changed (rules R54, R140 to R143). -/
def StoreResult (a v : Word) (s t : State) : Prop :=
  t.mem.read a = v ∧ SameMemExcept [a] s t ∧ SameRegsExcept [] s t ∧ t.cond = s.cond ∧ t.pc = s.pc ∧
    SameControl s t ∧ SameConsole s t

end Sys2Proof.Machine

namespace Sys2Proof

open Machine

/-- The register from which an instruction sets the flag, for those that set it (rule R27). -/
def Instr.flagSource : Instr → Option Reg
  | .addReg dr _ _ => some dr
  | .addImm dr _ _ => some dr
  | .andReg dr _ _ => some dr
  | .andImm dr _ _ => some dr
  | .notReg dr _ => some dr
  | .br _ _ _ _ => none
  | .jmp _ => none
  | .jsr _ => none
  | .jsrr _ => none
  | .ld dr _ => some dr
  | .st _ _ => none
  | .ldr dr _ _ => some dr
  | .str _ _ _ => none
  | .rti => none
  | .ldi dr _ => some dr
  | .sti _ _ => none
  | .res => none
  | .lea dr _ => some dr
  | .trap _ => none

/-- The general registers an instruction's own step may write (rule R21). GETC and IN write `x[0]`
in their completion step. -/
def Instr.writtenRegs : Instr → List Reg
  | .addReg dr _ _ => [dr]
  | .addImm dr _ _ => [dr]
  | .andReg dr _ _ => [dr]
  | .andImm dr _ _ => [dr]
  | .notReg dr _ => [dr]
  | .br _ _ _ _ => []
  | .jmp _ => []
  | .jsr _ => [.r7]
  | .jsrr _ => [.r7]
  | .ld dr _ => [dr]
  | .st _ _ => []
  | .ldr dr _ _ => [dr]
  | .str _ _ _ => []
  | .rti => []
  | .ldi dr _ => [dr]
  | .sti _ _ => []
  | .res => []
  | .lea dr _ => [dr]
  | .trap _ => [.r7]

/-- Whether an instruction may write `pc` (rule R24). -/
def Instr.writesPc : Instr → Bool
  | .addReg _ _ _ => false
  | .addImm _ _ _ => false
  | .andReg _ _ _ => false
  | .andImm _ _ _ => false
  | .notReg _ _ => false
  | .br _ _ _ _ => true
  | .jmp _ => true
  | .jsr _ => true
  | .jsrr _ => true
  | .ld _ _ => false
  | .st _ _ => false
  | .ldr _ _ _ => false
  | .str _ _ _ => false
  | .rti => false
  | .ldi _ _ => false
  | .sti _ _ => false
  | .res => false
  | .lea _ _ => false
  | .trap _ => false

/-- The addresses an instruction stores to in a state (rules R140 to R142). -/
def Instr.storeTargets (i : Instr) (s : State) : List Word :=
  match i with
  | .addReg _ _ _ => []
  | .addImm _ _ _ => []
  | .andReg _ _ _ => []
  | .andImm _ _ _ => []
  | .notReg _ _ => []
  | .br _ _ _ _ => []
  | .jmp _ => []
  | .jsr _ => []
  | .jsrr _ => []
  | .ld _ _ => []
  | .st _ off9 => [s.pcRelative off9]
  | .ldr _ _ _ => []
  | .str _ baseR off6 => [s.baseOffset baseR off6]
  | .rti => []
  | .ldi _ _ => []
  | .sti _ off9 => [s.readValue (s.pcRelative off9)]
  | .res => []
  | .lea _ _ => []
  | .trap _ => []

/-- Whether an instruction reads memory after its fetch, and so may poll the console (rules R52,
R56): the loads, the pointer read of STI, and the string reads of PUTS and PUTSP. -/
def Instr.mayPoll : Instr → Bool
  | .addReg _ _ _ => false
  | .addImm _ _ _ => false
  | .andReg _ _ _ => false
  | .andImm _ _ _ => false
  | .notReg _ _ => false
  | .br _ _ _ _ => false
  | .jmp _ => false
  | .jsr _ => false
  | .jsrr _ => false
  | .ld _ _ => true
  | .st _ _ => false
  | .ldr _ _ _ => true
  | .str _ _ _ => false
  | .rti => false
  | .ldi _ _ => true
  | .sti _ _ => true
  | .res => false
  | .lea _ _ => false
  | .trap v => v = 0x22#8 ∨ v = 0x24#8

end Sys2Proof
end

