-- ==== Sys2Proof/Certificates/Slice0/Obligations.lean ====
section
/-! DEFINITION. The statements about the model. Each docstring names the rule of spec/ or the
decision it rests on. An instruction's meaning runs on the state after the fetch, so `s.pc` in a
statement about `exec` is the post-increment program counter (rule R81). -/

open Sys2Proof Sys2Proof.Machine

/-! ## Encoding -/

/-- Rules R84 to R86 (decision D1, log entry 1): no operand bit is lost between the encoder and the
decoder, for every instruction and every operand. -/
def Obligations.EncodedInstructionDecodesBack : Prop :=
  ∀ i : Instr, decode (encode i) = i

/-- The opcode table: every word has the fixed bits of exactly one row, that of the instruction it
decodes to (rule R82, log entry 1). -/
def Obligations.EveryWordMatchesExactlyOneTableRow : Prop :=
  ∀ w : Word, opcodeTable.filter (fun row => row.covers w) = [(decode w).tableRow]

/-- Rule R88 (decision D4, log entry 4): a word that differs from another only in ignored bits is
the same instruction. -/
def Obligations.IgnoredBitsDoNotChangeTheInstruction : Prop :=
  ∀ w w' : Word, w &&& (decode w).usedBits = w' &&& (decode w).usedBits → decode w' = decode w

/-- Rules R83 to R85 (decision D1, log entry 1): the instruction and the fields that each opcode
value and mode bit select. -/
def Obligations.DecodeReadsTheFieldsOfEachFormat : Prop :=
  ∀ w : Word,
    (opcodeField w = 0#4 → decode w = .br (w.getLsbD 11) (w.getLsbD 10) (w.getLsbD 9) (offset9Field w)) ∧
    (opcodeField w = 1#4 → w.getLsbD 5 = false → decode w = .addReg (drField w) (baseField w) (sr2Field w)) ∧
    (opcodeField w = 1#4 → w.getLsbD 5 = true → decode w = .addImm (drField w) (baseField w) (imm5Field w)) ∧
    (opcodeField w = 2#4 → decode w = .ld (drField w) (offset9Field w)) ∧
    (opcodeField w = 3#4 → decode w = .st (drField w) (offset9Field w)) ∧
    (opcodeField w = 4#4 → w.getLsbD 11 = true → decode w = .jsr (offset11Field w)) ∧
    (opcodeField w = 4#4 → w.getLsbD 11 = false → decode w = .jsrr (baseField w)) ∧
    (opcodeField w = 5#4 → w.getLsbD 5 = false → decode w = .andReg (drField w) (baseField w) (sr2Field w)) ∧
    (opcodeField w = 5#4 → w.getLsbD 5 = true → decode w = .andImm (drField w) (baseField w) (imm5Field w)) ∧
    (opcodeField w = 6#4 → decode w = .ldr (drField w) (baseField w) (offset6Field w)) ∧
    (opcodeField w = 7#4 → decode w = .str (drField w) (baseField w) (offset6Field w)) ∧
    (opcodeField w = 8#4 → decode w = .rti) ∧
    (opcodeField w = 9#4 → decode w = .notReg (drField w) (baseField w)) ∧
    (opcodeField w = 10#4 → decode w = .ldi (drField w) (offset9Field w)) ∧
    (opcodeField w = 11#4 → decode w = .sti (drField w) (offset9Field w)) ∧
    (opcodeField w = 12#4 → decode w = .jmp (baseField w)) ∧
    (opcodeField w = 13#4 → decode w = .res) ∧
    (opcodeField w = 14#4 → decode w = .lea (drField w) (offset9Field w)) ∧
    (opcodeField w = 15#4 → decode w = .trap (trapvectField w))

/-- Rule R99 and the words of 95_test_vectors.md: words written out bit by bit from the formats. -/
def Obligations.WrittenOutWordsDecode : Prop :=
  decode 0b0001001010000011#16 = .addReg .r1 .r2 .r3 ∧
  decode 0b0101000000100000#16 = .andImm .r0 .r0 0#5 ∧
  decode 0b1001100101111111#16 = .notReg .r4 .r5 ∧
  decode 0b0000010000000011#16 = .br false true false 3#9 ∧
  decode 0b1100000010000000#16 = .jmp .r2 ∧
  decode 0b0100110000000000#16 = .jsr 0x400#11 ∧
  decode 0b0100000011000000#16 = .jsrr .r3 ∧
  decode 0b0110011110111110#16 = .ldr .r3 .r6 0b111110#6 ∧
  decode 0b0111001010000000#16 = .str .r1 .r2 0#6 ∧
  decode 0b1111000000100101#16 = .trap 0x25#8 ∧
  decode 0b1000111111111111#16 = .rti ∧
  decode 0b1101000100100011#16 = .res

/-- Rule R89: the words of opcodes 8 and 13 are fatal decode errors whatever their low 12 bits, and
no other word is one. -/
def Obligations.OnlyOpcodes8And13AreIllegal : Prop :=
  ∀ (w : Word) (s : State),
    (opcodeField w = 8#4 ∨ opcodeField w = 13#4 →
      (decode w).wellFormed = false ∧
      ∃ t, exec (decode w) s = .next t ∧ t.run = .fatal (opcodeField w)) ∧
    (¬ (opcodeField w = 8#4 ∨ opcodeField w = 13#4) →
      (decode w).wellFormed = true ∧
      ∀ t op, exec (decode w) s = .next t → t.run = .fatal op → s.run = .fatal op)

/-! ## Operands and the flag -/

/-- Rule R9: sign extension keeps the field's bits, copies its top bit into every higher bit, and so
keeps its two's-complement value. -/
def Obligations.SignExtensionCopiesTheTopBit : Prop :=
  ∀ (n : Nat) (v : BitVec n), 1 ≤ n → n ≤ 16 →
    (∀ j, j < 16 → (sext v).getLsbD j = if j < n then v.getLsbD j else v.getLsbD (n - 1)) ∧
    (sext v).toInt = v.toInt

/-- Rule R26: zero gives Z, bit 15 set gives N, anything else gives P, and nothing else changes. -/
def Obligations.SetccFollowsTheSignOfTheValue : Prop :=
  ∀ (s : State) (v : Word),
    (v = 0#16 → (s.setcc v).cond = .z) ∧
    (v ≠ 0#16 → v.getLsbD 15 = true → (s.setcc v).cond = .n) ∧
    (v ≠ 0#16 → v.getLsbD 15 = false → (s.setcc v).cond = .p) ∧
    { s.setcc v with cond := s.cond } = s

/-! ## Operate instructions -/

/-- Rules R110 and R111: ADD writes the sum modulo 2^16 in both forms, sets the flag from it, and
changes nothing else. -/
def Obligations.AddWritesTheSumAndTheFlag : Prop :=
  ∀ (dr sr1 sr2 : Reg) (imm5 : BitVec 5) (s : State),
    (∃ t, exec (.addReg dr sr1 sr2) s = .next t ∧ RegisterResult dr (s.reg sr1 + s.reg sr2) s t) ∧
    (∃ t, exec (.addImm dr sr1 imm5) s = .next t ∧ RegisterResult dr (s.reg sr1 + sext imm5) s t)

/-- Rules R112 and R113: AND writes the bitwise AND in both forms, sets the flag from it, and changes
nothing else. -/
def Obligations.AndWritesTheConjunctionAndTheFlag : Prop :=
  ∀ (dr sr1 sr2 : Reg) (imm5 : BitVec 5) (s : State),
    (∃ t, exec (.andReg dr sr1 sr2) s = .next t ∧ RegisterResult dr (s.reg sr1 &&& s.reg sr2) s t) ∧
    (∃ t, exec (.andImm dr sr1 imm5) s = .next t ∧ RegisterResult dr (s.reg sr1 &&& sext imm5) s t)

/-- Rule R114: NOT writes the complement, sets the flag from it, and changes nothing else. -/
def Obligations.NotWritesTheComplementAndTheFlag : Prop :=
  ∀ (dr sr : Reg) (s : State), ∃ t, exec (.notReg dr sr) s = .next t ∧
    RegisterResult dr (s.reg sr ^^^ 0xFFFF#16) s t

/-- Rule R116: the immediate form and the register form of ADD and AND agree when the register holds
the extended immediate. -/
def Obligations.ImmediateAndRegisterFormsAgree : Prop :=
  ∀ (dr sr1 sr2 : Reg) (imm5 : BitVec 5) (s : State), s.reg sr2 = sext imm5 →
    exec (.addImm dr sr1 imm5) s = exec (.addReg dr sr1 sr2) s ∧
    exec (.andImm dr sr1 imm5) s = exec (.andReg dr sr1 sr2) s

/-- Rule R117: after every flag-updating instruction the flag is Z exactly when the register just
written is zero, N exactly when its bit 15 is set, and P otherwise. -/
def Obligations.FlagFollowsTheRegisterWritten : Prop :=
  (∀ (i : Instr) (dr : Reg) (s t : State), i.flagSource = some dr → exec i s = .next t →
    (t.cond = .z ↔ t.reg dr = 0#16) ∧
    (t.cond = .n ↔ (t.reg dr).getLsbD 15 = true) ∧
    (t.cond = .p ↔ t.reg dr ≠ 0#16 ∧ (t.reg dr).getLsbD 15 = false)) ∧
  (∀ s t : State, completeGetc s = .next t ∨ completeIn s = .next t →
    (t.cond = .z ↔ t.reg .r0 = 0#16) ∧
    (t.cond = .n ↔ (t.reg .r0).getLsbD 15 = true) ∧
    (t.cond = .p ↔ t.reg .r0 ≠ 0#16 ∧ (t.reg .r0).getLsbD 15 = false))

/-- Rule R115: NOT, then ADD #1, then ADD subtract, modulo 2^16. The NOT overwrites `b`, so
the minuend is another register. -/
def Obligations.SubtractionByNotAndAdd : Prop :=
  ∀ (d a b : Reg) (s : State), a ≠ b → ∃ t1 t2 t3,
    exec (.notReg b b) s = .next t1 ∧ exec (.addImm b b 1#5) t1 = .next t2 ∧
    exec (.addReg d a b) t2 = .next t3 ∧
    t3.reg d = s.reg a - s.reg b ∧ t3.cond = condOf (s.reg a - s.reg b)

/-! ## Control transfer -/

/-- Rule R120: BR goes to the post-increment `pc` plus the extended offset exactly when an asserted
condition bit matches the flag, and changes nothing else. -/
def Obligations.BranchIsTakenWhenAConditionBitMatches : Prop :=
  ∀ (n z p : Bool) (off9 : BitVec 9) (s : State), ∃ t, exec (.br n z p off9) s = .next t ∧
    t.pc = (if (n = true ∧ s.cond = .n) ∨ (z = true ∧ s.cond = .z) ∨ (p = true ∧ s.cond = .p)
      then s.pc + sext off9 else s.pc) ∧
    SameRegsExcept [] s t ∧ t.cond = s.cond ∧ SameMem s t ∧ SameControl s t ∧ SameConsole s t

/-- Rule R121: JMP goes to the base register's value, and changes nothing else. -/
def Obligations.JumpGoesToTheBaseRegister : Prop :=
  ∀ (baseR : Reg) (s : State), ∃ t, exec (.jmp baseR) s = .next t ∧
    t.pc = s.reg baseR ∧
    SameRegsExcept [] s t ∧ t.cond = s.cond ∧ SameMem s t ∧ SameControl s t ∧ SameConsole s t

/-- Rule R122: JSR saves the post-increment `pc` in `x[7]`, goes to it plus the extended offset, and
changes nothing else. -/
def Obligations.JsrLinksAndJumpsRelative : Prop :=
  ∀ (off11 : BitVec 11) (s : State), ∃ t, exec (.jsr off11) s = .next t ∧
    t.reg .r7 = s.pc ∧ t.pc = s.pc + sext off11 ∧
    SameRegsExcept [.r7] s t ∧ t.cond = s.cond ∧ SameMem s t ∧ SameControl s t ∧ SameConsole s t

/-- Rule R123: JSRR saves the post-increment `pc` in `x[7]` and goes to the base register's value. With
`BaseR = 7` the base is read after the link write, decision D5 (log entry 5), so the run goes on at
the next instruction. -/
def Obligations.JsrrLinksAndJumpsToTheBaseRegister : Prop :=
  ∀ (baseR : Reg) (s : State), ∃ t, exec (.jsrr baseR) s = .next t ∧
    t.reg .r7 = s.pc ∧ t.pc = (if baseR = .r7 then s.pc else s.reg baseR) ∧
    SameRegsExcept [.r7] s t ∧ t.cond = s.cond ∧ SameMem s t ∧ SameControl s t ∧ SameConsole s t

/-- Rule R125: JSR and JSRR always save the post-increment `pc`, whatever the target. -/
def Obligations.JsrAndJsrrAlwaysSaveTheReturnAddress : Prop :=
  ∀ (i : Instr) (off11 : BitVec 11) (baseR : Reg) (s : State), i = .jsr off11 ∨ i = .jsrr baseR →
    ∃ t, exec i s = .next t ∧ t.reg .r7 = s.pc

/-! ## Memory and the keyboard registers -/

/-- Rule R52 (decisions D2, D3, D16): a read of KBSR polls the console, with and without input, and a
read elsewhere only reads. No read touches a register, the flag, the output or the run state. -/
def Obligations.ReadOfKbsrPollsTheConsole : Prop :=
  ∀ (a : Word) (s : State),
    ReadEffect a (memRead a s).1 s (memRead a s).2 ∧
    SameRegsExcept [] s (memRead a s).2 ∧ (memRead a s).2.pc = s.pc ∧ (memRead a s).2.cond = s.cond ∧
    SameControl s (memRead a s).2 ∧ (memRead a s).2.outq = s.outq

/-- Rule R53: a read at any address other than KBSR, KBDR among them, has no side effect and returns
the cell. -/
def Obligations.ReadElsewhereHasNoSideEffect : Prop :=
  (∀ (a : Word) (s : State), a ≠ Config.kbsrAddr → memRead a s = (s.mem.read a, s)) ∧
  (∀ s : State, memRead Config.kbdrAddr s = (s.mem.read Config.kbdrAddr, s))

/-- Rule R54: a write stores the word at its address, KBSR and KBDR among them, leaves every other
cell alone, and has no device side effect. -/
def Obligations.WriteStoresOneCellAndNothingElse : Prop :=
  ∀ (a v : Word) (s : State),
    (∀ b : Word, (s.memWrite a v).mem.read b = if b = a then v else s.mem.read b) ∧
    SameRegsExcept [] s (s.memWrite a v) ∧ (s.memWrite a v).pc = s.pc ∧ (s.memWrite a v).cond = s.cond ∧
    SameControl s (s.memWrite a v) ∧ SameConsole s (s.memWrite a v)

/-- Rule R50 and log entry 14: a memory in canonical form is determined by what its 65,536 cells read
as, so equal memories are equal data. -/
def Obligations.CanonicalMemoryIsDeterminedByItsCells : Prop :=
  ∀ m m' : Memory, m.wf → m'.wf → (∀ a : Word, m.read a = m'.read a) → m = m'

/-- Rules R56 and R57: a read of KBSR never returns a stored value, and two reads with no KBDR read
between them lose the first character. -/
def Obligations.KbsrReadsOverwriteAndLoseCharacters : Prop :=
  (∀ (v : Word) (s : State), (s.memWrite Config.kbsrAddr v).readValue Config.kbsrAddr =
    if s.inq = [] then 0#16 else 0x8000#16) ∧
  (∀ (s : State) (b1 b2 : Byte) (rest : List Byte), s.inq = b1 :: b2 :: rest →
    ∃ s', s' = (memRead Config.kbsrAddr (memRead Config.kbsrAddr s).2).2 ∧
      s'.mem.read Config.kbdrAddr = zext16 b2 ∧ s'.inq = rest)

/-! ## Loads and LEA -/

/-- Rule R130: LD reads at the PC-relative address, writes the word and the flag, and changes nothing
else but what a KBSR read changes. -/
def Obligations.LdLoadsThePcRelativeWord : Prop :=
  ∀ (dr : Reg) (off9 : BitVec 9) (s : State), ∃ t v, exec (.ld dr off9) s = .next t ∧
    LoadResult dr (s.pc + sext off9) v s t

/-- Rules R131 and R134: LDI reads the pointer and then the word it points to, in that order. The
state between the reads is the one `memRead` leaves. -/
def Obligations.LdiLoadsThroughThePointer : Prop :=
  ∀ (dr : Reg) (off9 : BitVec 9) (s : State), ∃ t v, exec (.ldi dr off9) s = .next t ∧
    LoadResult dr (memRead (s.pc + sext off9) s).1 v (memRead (s.pc + sext off9) s).2 t ∧
    SameRegsExcept [dr] s t ∧ t.pc = s.pc ∧ SameControl s t ∧ t.outq = s.outq ∧
    SameMemExcept [Config.kbsrAddr, Config.kbdrAddr] s t

/-- Rule R132: LDR reads at the base plus the extended offset; the base is read before the
destination is written. -/
def Obligations.LdrLoadsAtBasePlusOffset : Prop :=
  ∀ (dr baseR : Reg) (off6 : BitVec 6) (s : State), ∃ t v, exec (.ldr dr baseR off6) s = .next t ∧
    LoadResult dr (s.reg baseR + sext off6) v s t

/-- Rule R133: LEA writes the PC-relative address and the flag, and reads no memory, so it polls
nothing. -/
def Obligations.LeaComputesTheAddressWithoutMemory : Prop :=
  ∀ (dr : Reg) (off9 : BitVec 9) (s : State), ∃ t, exec (.lea dr off9) s = .next t ∧
    RegisterResult dr (s.pc + sext off9) s t

/-! ## Stores -/

/-- Rule R140: ST stores the register at the PC-relative address and changes nothing else. The address
may be that of the ST itself, the model's choice against rule R70 (log entry 23). -/
def Obligations.StStoresAtThePcRelativeAddress : Prop :=
  ∀ (sr : Reg) (off9 : BitVec 9) (s : State), ∃ t, exec (.st sr off9) s = .next t ∧
    StoreResult (s.pc + sext off9) (s.reg sr) s t

/-- Rule R141: STI reads the pointer, a side-effecting read, and stores the register where it points.
Against the state before the pointer read, only the target, KBSR and KBDR cells can change. The
target may be the pointer cell itself, the model's choice against rule R70 (log entry 23). -/
def Obligations.StiStoresThroughThePointer : Prop :=
  ∀ (sr : Reg) (off9 : BitVec 9) (s : State), ∃ t, exec (.sti sr off9) s = .next t ∧
    StoreResult (memRead (s.pc + sext off9) s).1 (s.reg sr) (memRead (s.pc + sext off9) s).2 t ∧
    SameRegsExcept [] s t ∧ t.cond = s.cond ∧ t.pc = s.pc ∧ SameControl s t ∧ t.outq = s.outq ∧
    SameMemExcept [(memRead (s.pc + sext off9) s).1, Config.kbsrAddr, Config.kbdrAddr] s t ∧
    (s.pc + sext off9 ≠ Config.kbsrAddr →
      StoreResult (s.mem.read (s.pc + sext off9)) (s.reg sr) s t)

/-- Rule R142: STR stores the register at the base plus the extended offset and changes nothing else.
The address may be that of the STR itself, the model's choice against rule R70 (log entry 23). -/
def Obligations.StrStoresAtBasePlusOffset : Prop :=
  ∀ (sr baseR : Reg) (off6 : BitVec 6) (s : State), ∃ t, exec (.str sr baseR off6) s = .next t ∧
    StoreResult (s.reg baseR + sext off6) (s.reg sr) s t

/-- Rule R74: a store to the address of the next instruction changes what the next step executes. -/
def Obligations.StoredWordIsTheNextInstruction : Prop :=
  ∀ (sr : Reg) (off9 : BitVec 9) (s t : State), exec (.st sr off9) s = .next t →
    s.pc + sext off9 = s.pc → s.pc ≠ Config.kbsrAddr → s.run = .running → s.wait = .none →
    step t = exec (decode (s.reg sr)) (t.setPc (s.pc + 1#16))

/-! ## TRAP and the services -/

/-- Rules R150, R159 and R186 (for PUTS and PUTSP decision D7, log entry 7): every TRAP completes its
step, saves the post-increment `pc` in `x[7]`, and leaves `pc`, the flag, every other register and
every cell but KBSR and KBDR alone. -/
def Obligations.TrapSavesTheReturnAddressAndCompletes : Prop :=
  ∀ (v : BitVec 8) (s : State), ∃ t, exec (.trap v) s = .next t ∧
    t.reg .r7 = s.pc ∧ SameRegsExcept [.r7] s t ∧ t.pc = s.pc ∧ t.cond = s.cond ∧
    SameMemExcept [Config.kbsrAddr, Config.kbdrAddr] s t

/-- Rule R152: the GETC step only saves the return address and waits; its completion, once a byte is
there, moves it to `x[0]` without echo, sets the flag and ends the wait. -/
def Obligations.GetcWaitsAndThenReadsOneByte : Prop :=
  (∀ s : State, ∃ t, exec (.trap 0x20#8) s = .next t ∧
    t.wait = .getcWait ∧ t.reg .r7 = s.pc ∧ SameRegsExcept [.r7] s t ∧ t.pc = s.pc ∧
    t.cond = s.cond ∧ SameMem s t ∧ t.run = s.run ∧ SameConsole s t) ∧
  (∀ (s : State) (b : Byte) (rest : List Byte),
    s.run = .running → s.wait = .getcWait → s.inq = b :: rest → ∃ t, step s = .next t ∧
      t.reg .r0 = zext16 b ∧ t.cond = (if b = 0#8 then .z else .p) ∧ t.wait = .none ∧ t.inq = rest ∧
      t.outq = s.outq ∧ SameRegsExcept [.r0] s t ∧ t.pc = s.pc ∧ SameMem s t ∧ t.run = .running)

/-- Rule R153: OUT writes bits 7:0 of `x[0]`. -/
def Obligations.OutWritesTheLowByteOfR0 : Prop :=
  ∀ s : State, ∃ t, exec (.trap 0x21#8) s = .next t ∧
    t.outq = s.outq ++ [(s.reg .r0).extractLsb' 0 8] ∧ t.inq = s.inq ∧
    t.reg .r7 = s.pc ∧ SameRegsExcept [.r7] s t ∧ t.pc = s.pc ∧ t.cond = s.cond ∧ SameMem s t ∧
    SameControl s t

/-- Rule R155: the IN step writes the prompt and waits; its completion reads one byte, echoes it,
sets the flag and ends the wait. The prompt is a free value (log entry 10). -/
def Obligations.InPromptsWaitsReadsAndEchoes : Prop :=
  (∀ s : State, ∃ t, exec (.trap 0x23#8) s = .next t ∧
    t.wait = .inWait ∧ t.outq = s.outq ++ Config.inPrompt ∧ t.inq = s.inq ∧ t.reg .r7 = s.pc ∧
    SameRegsExcept [.r7] s t ∧ t.pc = s.pc ∧ t.cond = s.cond ∧ SameMem s t ∧ t.run = s.run) ∧
  (∀ (s : State) (b : Byte) (rest : List Byte),
    s.run = .running → s.wait = .inWait → s.inq = b :: rest → ∃ t, step s = .next t ∧
      t.reg .r0 = zext16 b ∧ t.cond = (if b = 0#8 then .z else .p) ∧ t.wait = .none ∧ t.inq = rest ∧
      t.outq = s.outq ++ [b] ∧ SameRegsExcept [.r0] s t ∧ t.pc = s.pc ∧ SameMem s t ∧
      t.run = .running)

/-- Rule R157: HALT writes the banner and ends the run. The banner is a free value (log entry 10). -/
def Obligations.HaltEndsTheRun : Prop :=
  ∀ s : State, ∃ t, exec (.trap 0x25#8) s = .next t ∧
    t.run = .halted ∧ t.wait = s.wait ∧ t.outq = s.outq ++ Config.haltBanner ∧ t.inq = s.inq ∧
    t.reg .r7 = s.pc ∧ SameRegsExcept [.r7] s t ∧ t.pc = s.pc ∧ t.cond = s.cond ∧ SameMem s t

/-- Rule R158: a vector outside 0x20 to 0x25 saves the return address and does nothing else. -/
def Obligations.UndefinedVectorOnlySavesTheReturnAddress : Prop :=
  ∀ (v : BitVec 8) (s : State), v.toNat < 0x20 ∨ 0x25 < v.toNat → ∃ t, exec (.trap v) s = .next t ∧
    t.reg .r7 = s.pc ∧ SameRegsExcept [.r7] s t ∧ t.pc = s.pc ∧ t.cond = s.cond ∧ SameMem s t ∧
    SameControl s t ∧ SameConsole s t

/-- Rule R154 (decisions D6 and D8, log entries 6 and 8): on a string that lies off KBSR, PUTS writes
bits 7:0 of each word up to the first zero word. The string may wrap from 0xFFFF to 0x0000. -/
def Obligations.PutsWritesTheStringUpToTheZeroWord : Prop :=
  ∀ (s : State) (ws : List Word),
    (∀ k (h : k < ws.length), s.reg .r0 + BitVec.ofNat 16 k ≠ Config.kbsrAddr ∧
      s.mem.read (s.reg .r0 + BitVec.ofNat 16 k) = ws[k] ∧ ws[k] ≠ 0#16) →
    s.reg .r0 + BitVec.ofNat 16 ws.length ≠ Config.kbsrAddr →
    s.mem.read (s.reg .r0 + BitVec.ofNat 16 ws.length) = 0#16 →
    ∃ t, exec (.trap 0x22#8) s = .next t ∧
      t.outq = s.outq ++ ws.map (fun w => w.extractLsb' 0 8) ∧ t.inq = s.inq ∧
      t.reg .r7 = s.pc ∧ SameRegsExcept [.r7] s t ∧ t.pc = s.pc ∧ t.cond = s.cond ∧ SameMem s t ∧
      SameControl s t

/-- Rule R156 (decisions D8 and D23, log entries 6 and 8): on a string that lies off KBSR, PUTSP writes
for each word up to the first zero word bits 7:0, and then bits 15:8 unless they are zero. -/
def Obligations.PutspWritesThePackedStringUpToTheZeroWord : Prop :=
  ∀ (s : State) (ws : List Word),
    (∀ k (h : k < ws.length), s.reg .r0 + BitVec.ofNat 16 k ≠ Config.kbsrAddr ∧
      s.mem.read (s.reg .r0 + BitVec.ofNat 16 k) = ws[k] ∧ ws[k] ≠ 0#16) →
    s.reg .r0 + BitVec.ofNat 16 ws.length ≠ Config.kbsrAddr →
    s.mem.read (s.reg .r0 + BitVec.ofNat 16 ws.length) = 0#16 →
    ∃ t, exec (.trap 0x24#8) s = .next t ∧
      t.outq = s.outq ++ ws.flatMap (fun w => w.extractLsb' 0 8 ::
        (if w.extractLsb' 8 8 = 0#8 then [] else [w.extractLsb' 8 8])) ∧ t.inq = s.inq ∧
      t.reg .r7 = s.pc ∧ SameRegsExcept [.r7] s t ∧ t.pc = s.pc ∧ t.cond = s.cond ∧ SameMem s t ∧
      SameControl s t

/-- Rules R154 and R156, the loop itself (decision D7, log entry 7), polls of KBSR among its reads: read
the word; stop at zero; else write its bytes and go on at the next address, modulo 2^16. The bound
the model puts on the words read never shows. -/
def Obligations.StringScanFollowsTheLoopOfTheRule : Prop :=
  ∀ (bytes : Word → List Byte) (a : Word) (s : State),
    scanString Config.stringReadPolls bytes (scanBound s) a s =
      (if (memRead a s).1 = 0#16 then some (memRead a s).2
      else
        scanString Config.stringReadPolls bytes
          (scanBound ((memRead a s).2.consoleOut (bytes (memRead a s).1))) (a + 1#16)
          ((memRead a s).2.consoleOut (bytes (memRead a s).1)))

/-- Rule R154 under the other value of `STRING_READ_POLLS` (decisions D7 and D8, log entries 7 and 8): when
string reads do not poll, a scan hangs exactly when no cell of memory reads zero. -/
def Obligations.ScanWithoutPollsHangsWithoutAZeroWord : Prop :=
  ∀ (bytes : Word → List Byte) (s : State),
    serviceString false bytes s = .fault .hang ↔ ∀ a : Word, s.mem.read a ≠ 0#16

/-! ## The fatal decode error -/

/-- Rules R170, R171 and R181: RTI and the reserved opcode take `InvalidOpcode`, which writes `run`
and nothing else. -/
def Obligations.RtiAndReservedTakeTheFatalDecodeError : Prop :=
  ∀ s : State,
    (∃ t, exec .rti s = .next t ∧ t.run = .fatal 8#4 ∧ t.wait = s.wait ∧ SameRegsExcept [] s t ∧
      t.pc = s.pc ∧ t.cond = s.cond ∧ SameMem s t ∧ SameConsole s t) ∧
    (∃ t, exec .res s = .next t ∧ t.run = .fatal 13#4 ∧ t.wait = s.wait ∧ SameRegsExcept [] s t ∧
      t.pc = s.pc ∧ t.cond = s.cond ∧ SameMem s t ∧ SameConsole s t)

/-- Rule R172: after a fatal decode error everything is as before the fetch, but `pc` is the word's
address plus one, and a fetch from KBSR has polled. Such a fetch that finds input always ends the
run on opcode 8 (decision D3, log entry 3). -/
def Obligations.StateAfterAFatalDecodeError : Prop :=
  (∀ (s : State) (w : Word), s.run = .running → s.wait = .none → w = s.readValue s.pc →
    opcodeField w = 8#4 ∨ opcodeField w = 13#4 → ∃ t, step s = .next t ∧
      t.run = .fatal (opcodeField w) ∧ t.pc = s.pc + 1#16 ∧ SameRegsExcept [] s t ∧ t.cond = s.cond ∧
      t.outq = s.outq ∧ t.wait = .none ∧ ReadEffect s.pc w s t) ∧
  (∀ s : State, s.run = .running → s.wait = .none → s.pc = Config.kbsrAddr → s.inq ≠ [] →
    ∃ t, step s = .next t ∧ t.run = .fatal 8#4)

/-! ## The instruction cycle -/

/-- Rule R81: a step fetches the word at `pc` with a side-effecting read, adds 1 to `pc` modulo 2^16, and
runs the instruction the word decodes to on the state so reached. -/
def Obligations.StepRunsTheDecodedInstruction : Prop :=
  ∀ s : State, s.run = .running → s.wait = .none →
    step s = exec (decode (memRead s.pc s).1) { (memRead s.pc s).2 with pc := s.pc + 1#16 }

/-- Rules R30, R33 and R80: the block has a step exactly when it runs and either no trap waits or
input is there. Its last case rests on decision D7 (log entry 7), since PUTS and PUTSP always end. -/
def Obligations.BlockStepsExactlyWhenEnabled : Prop :=
  ∀ s : State, (∃ t, step s = .next t) ↔ s.run = .running ∧ (s.wait = .none ∨ s.inq ≠ [])

/-! ## Rules over all instructions -/

/-- Rule R27: the writers of the flag are exactly the operate instructions, the loads and LEA, from
their destination, and the completions of GETC and IN, from `x[0]`. -/
def Obligations.FlagHasExactlyItsWriters : Prop :=
  (∀ (i : Instr) (s t : State), exec i s = .next t →
    match i.flagSource with
    | some dr => t.cond = condOf (t.reg dr)
    | none => t.cond = s.cond) ∧
  (∀ s t : State, completeGetc s = .next t ∨ completeIn s = .next t → t.cond = condOf (t.reg .r0))

/-- Rules R21 and R24: an instruction writes no register but its destination, or `x[7]` for JSR, JSRR
and TRAP, and only BR, JMP, JSR and JSRR write `pc`. -/
def Obligations.RegistersAndPcHaveOnlyTheirWriters : Prop :=
  (∀ (i : Instr) (s t : State), exec i s = .next t →
    SameRegsExcept i.writtenRegs s t ∧ (i.writesPc = false → t.pc = s.pc)) ∧
  (∀ s t : State, completeGetc s = .next t ∨ completeIn s = .next t →
    SameRegsExcept [.r0] s t ∧ t.pc = s.pc)

/-- Rules R54, R56 and R67: an instruction changes no cell but the one it stores to, and KBSR and KBDR
if it reads memory. -/
def Obligations.MemoryHasOnlyItsWriters : Prop :=
  ∀ (i : Instr) (s t : State), exec i s = .next t →
    SameMemExcept (i.storeTargets s ++ if i.mayPoll then [Config.kbsrAddr, Config.kbdrAddr] else []) s t

/-- Rule R28: only BR reads the flag. Any other instruction does the same whatever the flag is, but
for the flag itself. -/
def Obligations.OnlyBranchReadsTheFlag : Prop :=
  ∀ (i : Instr) (c : Cond) (s t : State), (∀ n z p off9, i ≠ .br n z p off9) → exec i s = .next t →
    ∃ t', exec i { s with cond := c } = .next t' ∧ { t' with cond := t.cond } = t ∧
      t'.cond = (match i.flagSource with | some _ => t.cond | none => c)

/-- Rules R31, R32 and R71: a step takes bytes only from the head of `inq` and only appends to
`outq`. -/
def Obligations.StepMovesTheConsoleQueuesOneWay : Prop :=
  ∀ s t : State, step s = .next t → t.inq <:+ s.inq ∧ s.outq <+: t.outq

/-! ## The host's side -/

/-- Rules R62 to R64 (decision D15, log entry 16): a load writes the whole big-endian words of the image
from its origin on, never past 0xFFFF, and nothing else. An image under two bytes writes nothing. -/
def Obligations.LoadPlacesTheImageWords : Prop :=
  (∀ (hi lo : Byte) (data : List Byte) (s : State), s.run = .loading →
    ∃ t, hostLoad (hi :: lo :: data) s = some t ∧
      (∀ (a : Word) (k : Nat), a.toNat = (hi ++ lo).toNat + k → ∀ h : 2 * k + 1 < data.length,
        t.mem.read a = data[2 * k] ++ data[2 * k + 1]) ∧
      (∀ a : Word, a.toNat < (hi ++ lo).toNat ∨ (hi ++ lo).toNat + data.length / 2 ≤ a.toNat →
        t.mem.read a = s.mem.read a) ∧
      SameRegsExcept [] s t ∧ t.pc = s.pc ∧ t.cond = s.cond ∧ SameControl s t ∧ SameConsole s t) ∧
  (∀ (bytes : List Byte) (s : State), s.run = .loading → bytes.length < 2 →
    hostLoad bytes s = some s)

/-- Rule R43: `start` is the change of `run` from Loading to Running, and nothing else. -/
def Obligations.StartOnlyBeginsTheRun : Prop :=
  ∀ s : State, (s.run = .loading → hostStart s = some { s with run := .running }) ∧
    (s.run ≠ .loading → hostStart s = none)

/-- Rules R44 and R47 (decisions D10 and D17; delivery before the run, log entry 17): the interrupt is
enabled only between instructions and changes only `run`; a delivery only appends to `inq`, also
while a trap waits. -/
def Obligations.InterruptAndDeliveryChangeOneField : Prop :=
  (∀ s : State, s.run = .running → s.wait = .none →
    hostInterrupt s = some { s with run := .interrupted }) ∧
  (∀ s : State, s.run ≠ .running ∨ s.wait ≠ .none → hostInterrupt s = none) ∧
  (∀ (bs : List Byte) (s : State), s.run = .loading ∨ s.run = .running →
    hostDeliver bs s = some { s with inq := s.inq ++ bs })

/-- Rules R30, R42, R43 and R44 (decision D18, log entry 12): in a terminal run state no step, load,
`start` or interrupt happens any more, and no image is loaded once the run has started. That no
input is delivered after the end either is the model's choice: rule R47 speaks of the running block
only (log entry 17). -/
def Obligations.NothingHappensAfterTheRunEnds : Prop :=
  (∀ (e : Event) (s t : State), s.run.terminal = true → transition e s ≠ .next t) ∧
  (∀ (bytes : List Byte) (s : State), s.run ≠ .loading → hostLoad bytes s = none)

/-- Rule R37: the values the spec gives for reset. It gives none for `inq` (log entry 13). -/
def Obligations.ResetLeavesTheStatedValues : Prop :=
  (∀ r, State.reset.reg r = 0#16) ∧ State.reset.pc = 0x3000#16 ∧ State.reset.cond = .z ∧
  (∀ a : Word, State.reset.mem.read a = 0#16) ∧ State.reset.run = .loading ∧
  State.reset.wait = .none ∧ State.reset.outq = []

/-! ## Invariants -/

/-- The invariant holds right after reset. -/
def Obligations.ResetMeetsTheInvariant : Prop := State.reset.Inv

/-- Every step of the block keeps the invariant: canonical memory, fatal errors only on opcodes 8 and
13, a wait only while running, and the reset values while loading. -/
def Obligations.StepKeepsTheInvariant : Prop :=
  ∀ s t : State, s.Inv → step s = .next t → t.Inv

/-- Rules R42, R43, R44 and R47: every host action keeps the invariant, from every state that meets it
and not only from those that runs reach. -/
def Obligations.HostActionsKeepTheInvariant : Prop :=
  ∀ (a : HostAction) (s t : State), s.Inv → hostAct a s = some t → t.Inv

/-- Rules R40 and R185: whatever the host does and whenever it does it, every reachable state meets the
invariant. -/
def Obligations.EveryReachableStateMeetsTheInvariant : Prop :=
  ∀ s : State, Reachable s → s.Inv
end

