-- ==== Sys2Proof/Laws/Encoding.lean ====
section
/-! SUPPORT. The laws of placed and extracted fields, from which facts about the encoder and the
decoder follow. -/

namespace Sys2Proof

@[simp] theorem Reg.ofBits_bits (r : Reg) : Reg.ofBits r.bits = r := by cases r <;> rfl

@[simp] theorem Reg.bits_ofBits (b : BitVec 3) : (Reg.ofBits b).bits = b := by
  revert b
  decide

/-- A bit of a word that holds one placed field. -/
theorem getLsbD_placeField {n : Nat} (lo : Nat) (v : BitVec n) (j : Nat) :
    (placeField lo v).getLsbD j = (decide (j < 16) && decide (lo ≤ j) && v.getLsbD (j - lo)) := by
  simp only [placeField, BitVec.getLsbD_shiftLeft, BitVec.getLsbD_setWidth, BitVec.zeroExtend]
  by_cases h16 : j < 16
  · by_cases hlo : j < lo
    · simp [h16, hlo, Nat.not_le.mpr hlo]
    · have : j - lo < 16 := by omega
      simp [h16, hlo, Nat.not_lt.mp hlo, this]
  · simp [h16]

/-- A placed field is read back at its place. -/
theorem extract_placeField {n lo : Nat} (v : BitVec n) (h : lo + n ≤ 16) :
    (placeField lo v).extractLsb' lo n = v := by
  refine BitVec.eq_of_getLsbD_eq fun j hj => ?_
  have hj' : lo + j < 16 := by omega
  rw [BitVec.getLsbD_extractLsb', getLsbD_placeField]
  simp [hj, hj']

/-- A placed field does not show in a field that lies apart from it. -/
theorem extract_placeField_apart {n m lo k : Nat} (v : BitVec n) (h : lo + n ≤ k ∨ k + m ≤ lo) :
    (placeField lo v).extractLsb' k m = 0#m := by
  refine BitVec.eq_of_getLsbD_eq fun j hj => ?_
  rw [BitVec.getLsbD_extractLsb', getLsbD_placeField]
  rcases h with h | h
  · have : v.getLsbD (k + j - lo) = false := BitVec.getLsbD_of_ge _ _ (by omega)
    simp [this]
  · have : ¬ lo ≤ k + j := by omega
    simp [this]

/-- A field of two words put together by `|||` is that of both. -/
theorem extract_or (x y : Word) (k m : Nat) :
    (x ||| y).extractLsb' k m = x.extractLsb' k m ||| y.extractLsb' k m := by
  refine BitVec.eq_of_getLsbD_eq fun j hj => ?_
  simp [hj]

end Sys2Proof
end

