-- ==== Sys2Proof/Laws/Memory.lean ====
section
/-! SUPPORT. The laws of the storage cells: a read after a write, the canonical form, and the equality
of canonical memories that read the same. -/

namespace Sys2Proof.Machine

theorem Memory.readAt_erase (m : Memory) (a b : Nat) :
    (m.erase a).readAt b = if b = a then 0#16 else m.readAt b := by
  induction m with
  | nil => simp [Memory.erase, Memory.readAt]
  | cons c m ih =>
    obtain ⟨k, w⟩ := c
    simp only [Memory.erase] at ih
    by_cases hk : k = a
    · by_cases hb : b = a <;> simp_all [Memory.erase, Memory.readAt]
      omega
    · by_cases hkb : k = b
      · subst hkb
        simp [Memory.erase, Memory.readAt, hk]
      · simp [Memory.erase, Memory.readAt, hk, hkb, ih]

theorem Memory.readAt_insert (m : Memory) (a b : Nat) (v : Word) (h : ∀ c ∈ m, c.1 ≠ a) :
    (m.insert a v).readAt b = if b = a then v else m.readAt b := by
  induction m with
  | nil =>
    by_cases hb : b = a
    · simp [Memory.insert, Memory.readAt, hb]
    · simp [Memory.insert, Memory.readAt, hb, Ne.symm hb]
  | cons c m ih =>
    obtain ⟨k, w⟩ := c
    have hk : k ≠ a := h (k, w) (by simp)
    have ih := ih fun c hc => h c (by simp [hc])
    by_cases hlt : a < k
    · by_cases hb : b = a
      · simp [Memory.insert, Memory.readAt, hlt, hb]
      · simp [Memory.insert, Memory.readAt, hlt, hb, Ne.symm hb]
    · by_cases hkb : k = b
      · subst hkb
        simp [Memory.insert, Memory.readAt, hlt, hk]
      · simp [Memory.insert, Memory.readAt, hlt, hkb, ih]

theorem Memory.erase_ne {m : Memory} {a : Nat} {c : Nat × Word} (h : c ∈ m.erase a) : c.1 ≠ a := by
  simpa using (List.mem_filter.mp h).2

/-- A read after a write (rules R52 to R54): the word written at its address, the old cell elsewhere. -/
@[simp] theorem Memory.read_write (m : Memory) (a b v : Word) :
    (m.write a v).read b = if b = a then v else m.read b := by
  have key : (m.write a v).readAt b.toNat = if b.toNat = a.toNat then v else m.readAt b.toNat := by
    unfold Memory.write
    split
    · next hv => rw [Memory.readAt_erase, hv]
    · rw [Memory.readAt_insert _ _ _ _ fun c hc => Memory.erase_ne hc, Memory.readAt_erase]
      split <;> rfl
  simpa [Memory.read, BitVec.toNat_inj] using key

theorem Memory.erase_wf {m : Memory} (a : Nat) (h : m.wf) : (m.erase a).wf :=
  ⟨h.1.filter _, fun c hc => h.2 c (List.mem_of_mem_filter hc)⟩

theorem Memory.mem_insert {m : Memory} {a : Nat} {v : Word} {c : Nat × Word} :
    c ∈ m.insert a v → c = (a, v) ∨ c ∈ m := by
  induction m with
  | nil => simp [Memory.insert]
  | cons d m ih =>
    obtain ⟨k, w⟩ := d
    unfold Memory.insert
    split
    · simp
    · intro h
      rcases List.mem_cons.mp h with h | h
      · simp [h]
      · rcases ih h with h | h <;> simp [h]

theorem Memory.insert_wf {m : Memory} {a : Nat} {v : Word} (h : m.wf) (ha : ∀ c ∈ m, c.1 ≠ a)
    (hlt : a < Config.memSize) (hv : v ≠ 0#16) : (m.insert a v).wf := by
  refine ⟨?_, fun c hc => ?_⟩
  · obtain ⟨hp, -⟩ := h
    induction m with
    | nil => simp [Memory.insert]
    | cons d m ih =>
      obtain ⟨k, w⟩ := d
      obtain ⟨hk, hp'⟩ := List.pairwise_cons.mp hp
      unfold Memory.insert
      split
      · next hak =>
        refine List.pairwise_cons.mpr ⟨fun c hc => ?_, hp⟩
        rcases List.mem_cons.mp hc with rfl | hc
        · exact hak
        · exact lt_trans hak (hk c hc)
      · next hak =>
        have hka : k ≠ a := ha (k, w) (by simp)
        refine List.pairwise_cons.mpr ⟨fun c hc => ?_, ih (fun c hc => ha c (by simp [hc])) hp'⟩
        rcases Memory.mem_insert hc with rfl | hc
        · simp only
          omega
        · exact hk c hc
  · rcases Memory.mem_insert hc with rfl | hc
    · exact ⟨hlt, hv⟩
    · exact h.2 c hc

/-- The one operation that changes a memory keeps its canonical form. -/
theorem Memory.write_wf {m : Memory} (a v : Word) (h : m.wf) : (m.write a v).wf := by
  unfold Memory.write
  split
  · exact Memory.erase_wf _ h
  · next hv => exact Memory.insert_wf (Memory.erase_wf _ h) (fun c hc => Memory.erase_ne hc) a.isLt hv

theorem Memory.readAt_of_forall_ne {m : Memory} {a : Nat} (h : ∀ c ∈ m, c.1 ≠ a) : m.readAt a = 0#16 := by
  induction m with
  | nil => rfl
  | cons c m ih =>
    have hc : c.1 ≠ a := h c (by simp)
    simp [Memory.readAt, hc, ih fun d hd => h d (by simp [hd])]

/-- In a canonical memory a cell is listed exactly when it reads other than 0. -/
theorem Memory.mem_iff_readAt {m : Memory} (h : m.wf) (a : Nat) (v : Word) (hv : v ≠ 0#16) :
    (a, v) ∈ m ↔ m.readAt a = v := by
  induction m with
  | nil => simpa [Memory.readAt] using Ne.symm hv
  | cons c m ih =>
    obtain ⟨k, w⟩ := c
    obtain ⟨hk, hp⟩ := List.pairwise_cons.mp h.1
    have ih := ih ⟨hp, fun c hc => h.2 c (by simp [hc])⟩
    by_cases hka : k = a
    · subst hka
      have hkm : (k, v) ∉ m := fun hm => lt_irrefl k (hk (k, v) hm)
      simp [Memory.readAt, hkm, eq_comm (a := v)]
    · simp [Memory.readAt, hka, ih, Ne.symm hka]

end Sys2Proof.Machine
end

