-- ==== Sys2Proof/Laws/Loader.lean ====
section
/-! SUPPORT. What the image loader does (rules R62, R63): the words of an image, and the cells that
storing them changes. -/

namespace Sys2Proof.Machine

theorem imageWords_length : ∀ data : List Byte, (imageWords data).length = data.length / 2
  | [] => rfl
  | [_] => by simp [imageWords]
  | _ :: _ :: rest => by
    simp only [imageWords, List.length_cons, imageWords_length rest]
    omega

/-- Word `k` of an image is its bytes `2k` and `2k + 1`, big-endian. -/
theorem imageWords_getElem : ∀ (data : List Byte) (k : Nat) (h : 2 * k + 1 < data.length),
    (imageWords data)[k]'(by rw [imageWords_length]; omega) = bigEndianWord data[2 * k] data[2 * k + 1]
  | [], k, h => absurd h (by simp)
  | [_], k, h => absurd h (by simp)
  | _ :: _ :: _, 0, _ => rfl
  | _ :: _ :: rest, k + 1, h => by
    have hk : 2 * k + 1 < rest.length := by
      simp only [List.length_cons] at h
      omega
    simpa [imageWords, Nat.mul_add] using imageWords_getElem rest k hk

/-- Storing words that fit below the top of memory changes exactly their cells. -/
theorem read_storeWords : ∀ (ws : List Word) (m : Memory) (a b : Word),
    a.toNat + ws.length ≤ Config.memSize →
    (storeWords m a ws).read b =
      if h : a.toNat ≤ b.toNat ∧ b.toNat - a.toNat < ws.length then ws[b.toNat - a.toNat]'h.2
      else m.read b
  | [], m, a, b, _ => by simp [storeWords]
  | w :: ws, m, a, b, h => by
    simp only [List.length_cons, Config.memSize] at h
    have hb := b.isLt
    cases ws with
    | nil =>
      by_cases hab : b = a
      · simp [storeWords, hab]
      · have hne : b.toNat ≠ a.toNat := fun e => hab (BitVec.eq_of_toNat_eq e)
        rw [storeWords, storeWords, Memory.read_write, if_neg hab, dif_neg]
        simp only [List.length_singleton]
        omega
    | cons w' ws' =>
      have ha : (a + 1#16).toNat = a.toNat + 1 := by
        simp only [List.length_cons] at h
        rw [BitVec.toNat_add, BitVec.toNat_ofNat]
        omega
      rw [storeWords, read_storeWords (w' :: ws') (m.write a w) (a + 1#16) b (by
        rw [ha]
        simp only [Config.memSize]
        omega)]
      simp only [ha, Memory.read_write]
      by_cases hlt : a.toNat + 1 ≤ b.toNat
      · have hne : b ≠ a := fun e => by
          rw [e] at hlt
          omega
        obtain ⟨d, hd⟩ : ∃ d, b.toNat = a.toNat + 1 + d := ⟨b.toNat - (a.toNat + 1), by omega⟩
        have h1 : b.toNat - (a.toNat + 1) = d := by omega
        have h2 : b.toNat - a.toNat = d + 1 := by omega
        have h3 : a.toNat ≤ b.toNat := by omega
        simp [h1, h2, h3, hlt, hne]
      · by_cases hab : b = a
        · subst hab
          simp
        · have hne : b.toNat ≠ a.toNat := fun e => hab (BitVec.eq_of_toNat_eq e)
          have h1 : ¬ a.toNat ≤ b.toNat := by omega
          simp [hlt, hab, h1]

theorem storeWords_wf : ∀ (ws : List Word) {m : Memory} (a : Word), m.wf → (storeWords m a ws).wf
  | [], _, _, h => h
  | _ :: ws, _, _, h => storeWords_wf ws _ (Memory.write_wf _ _ h)

/-- A load keeps the canonical form. -/
theorem loadImage_wf (bytes : List Byte) {m : Memory} (h : m.wf) : (loadImage bytes m).wf := by
  unfold loadImage
  split
  · exact h
  · exact storeWords_wf _ _ h

end Sys2Proof.Machine
end

