-- ==== Sys2Proof/Laws/PerInstr.lean ====
section
/-! SUPPORT. Facts of every instruction as syntax, one lemma per constructor. `TableBits`: its row is
a row of the opcode table, the row fixes bits that its format reads, and the values of the fixed bits
lie within them (rules R82, R84, R88). -/

namespace Sys2Proof.Laws.TableBits

/-- The row of an instruction is well made, and none of its fixed bits is ignored. -/
def Statement (i : Instr) : Prop :=
  i.tableRow ∈ opcodeTable ∧ i.tableRow.mask &&& i.usedBits = i.tableRow.mask ∧
    i.tableRow.value &&& i.tableRow.mask = i.tableRow.value

theorem addReg (dr sr1 sr2 : Reg) : Statement (.addReg dr sr1 sr2) := by
  simp only [Statement, Instr.tableRow, Instr.usedBits]
  decide

theorem addImm (dr sr1 : Reg) (imm5 : BitVec 5) : Statement (.addImm dr sr1 imm5) := by
  simp only [Statement, Instr.tableRow, Instr.usedBits]
  decide

theorem andReg (dr sr1 sr2 : Reg) : Statement (.andReg dr sr1 sr2) := by
  simp only [Statement, Instr.tableRow, Instr.usedBits]
  decide

theorem andImm (dr sr1 : Reg) (imm5 : BitVec 5) : Statement (.andImm dr sr1 imm5) := by
  simp only [Statement, Instr.tableRow, Instr.usedBits]
  decide

theorem notReg (dr sr : Reg) : Statement (.notReg dr sr) := by
  simp only [Statement, Instr.tableRow, Instr.usedBits]
  decide

theorem br (n z p : Bool) (off9 : BitVec 9) : Statement (.br n z p off9) := by
  simp only [Statement, Instr.tableRow, Instr.usedBits]
  decide

theorem jmp (baseR : Reg) : Statement (.jmp baseR) := by
  simp only [Statement, Instr.tableRow, Instr.usedBits]
  decide

theorem jsr (off11 : BitVec 11) : Statement (.jsr off11) := by
  simp only [Statement, Instr.tableRow, Instr.usedBits]
  decide

theorem jsrr (baseR : Reg) : Statement (.jsrr baseR) := by
  simp only [Statement, Instr.tableRow, Instr.usedBits]
  decide

theorem ld (dr : Reg) (off9 : BitVec 9) : Statement (.ld dr off9) := by
  simp only [Statement, Instr.tableRow, Instr.usedBits]
  decide

theorem st (sr : Reg) (off9 : BitVec 9) : Statement (.st sr off9) := by
  simp only [Statement, Instr.tableRow, Instr.usedBits]
  decide

theorem ldr (dr baseR : Reg) (off6 : BitVec 6) : Statement (.ldr dr baseR off6) := by
  simp only [Statement, Instr.tableRow, Instr.usedBits]
  decide

theorem str (sr baseR : Reg) (off6 : BitVec 6) : Statement (.str sr baseR off6) := by
  simp only [Statement, Instr.tableRow, Instr.usedBits]
  decide

theorem rti : Statement .rti := by
  simp only [Statement, Instr.tableRow, Instr.usedBits]
  decide

theorem ldi (dr : Reg) (off9 : BitVec 9) : Statement (.ldi dr off9) := by
  simp only [Statement, Instr.tableRow, Instr.usedBits]
  decide

theorem sti (sr : Reg) (off9 : BitVec 9) : Statement (.sti sr off9) := by
  simp only [Statement, Instr.tableRow, Instr.usedBits]
  decide

theorem res : Statement .res := by
  simp only [Statement, Instr.tableRow, Instr.usedBits]
  decide

theorem lea (dr : Reg) (off9 : BitVec 9) : Statement (.lea dr off9) := by
  simp only [Statement, Instr.tableRow, Instr.usedBits]
  decide

theorem trap (vect8 : BitVec 8) : Statement (.trap vect8) := by
  simp only [Statement, Instr.tableRow, Instr.usedBits]
  decide

end Sys2Proof.Laws.TableBits
end

