-- ==== Sys2Proof/Laws/State.lean ====
section
/-! SUPPORT. What each update of the state does to each field, so that no proof unfolds a record
update. `reg` stands for the register file. -/

namespace Sys2Proof.Machine

variable (s : State)

@[simp] theorem RegFile.get_set (f : RegFile) (r r' : Reg) (v : Word) :
    (f.set r v).get r' = if r' = r then v else f.get r' := by
  cases r <;> cases r' <;> rfl

theorem RegFile.ext_get {f g : RegFile} (h : ∀ r, f.get r = g.get r) : f = g := by
  cases f
  cases g
  exact RegFile.mk.injEq .. ▸ ⟨h .r0, h .r1, h .r2, h .r3, h .r4, h .r5, h .r6, h .r7⟩

/-- Two states that agree on every register and every other field are equal. -/
theorem State.ext_reg {s t : State} (hr : ∀ r, s.reg r = t.reg r) (hp : s.pc = t.pc)
    (hc : s.cond = t.cond) (hm : s.mem = t.mem) (hru : s.run = t.run) (hw : s.wait = t.wait)
    (hi : s.inq = t.inq) (ho : s.outq = t.outq) : s = t :=
  State.ext (RegFile.ext_get hr) hp hc hm hru hw hi ho

@[simp] theorem State.reg_setReg (r r' : Reg) (v : Word) :
    (s.setReg r v).reg r' = if r' = r then v else s.reg r' :=
  RegFile.get_set s.regs r r' v

@[simp] theorem State.reg_writeResult (r r' : Reg) (v : Word) :
    (s.writeResult r v).reg r' = if r' = r then v else s.reg r' :=
  RegFile.get_set s.regs r r' v

@[simp] theorem State.reg_link (r : Reg) : s.link.reg r = if r = .r7 then s.pc else s.reg r :=
  RegFile.get_set s.regs .r7 r s.pc

@[simp] theorem State.pc_setReg (r : Reg) (v : Word) : (s.setReg r v).pc = s.pc := rfl
@[simp] theorem State.cond_setReg (r : Reg) (v : Word) : (s.setReg r v).cond = s.cond := rfl
@[simp] theorem State.mem_setReg (r : Reg) (v : Word) : (s.setReg r v).mem = s.mem := rfl
@[simp] theorem State.run_setReg (r : Reg) (v : Word) : (s.setReg r v).run = s.run := rfl
@[simp] theorem State.wait_setReg (r : Reg) (v : Word) : (s.setReg r v).wait = s.wait := rfl
@[simp] theorem State.inq_setReg (r : Reg) (v : Word) : (s.setReg r v).inq = s.inq := rfl
@[simp] theorem State.outq_setReg (r : Reg) (v : Word) : (s.setReg r v).outq = s.outq := rfl

@[simp] theorem State.reg_setPc (v : Word) (r' : Reg) : (s.setPc v).reg r' = s.reg r' := rfl
@[simp] theorem State.pc_setPc (v : Word) : (s.setPc v).pc = v := rfl
@[simp] theorem State.cond_setPc (v : Word) : (s.setPc v).cond = s.cond := rfl
@[simp] theorem State.mem_setPc (v : Word) : (s.setPc v).mem = s.mem := rfl
@[simp] theorem State.run_setPc (v : Word) : (s.setPc v).run = s.run := rfl
@[simp] theorem State.wait_setPc (v : Word) : (s.setPc v).wait = s.wait := rfl
@[simp] theorem State.inq_setPc (v : Word) : (s.setPc v).inq = s.inq := rfl
@[simp] theorem State.outq_setPc (v : Word) : (s.setPc v).outq = s.outq := rfl

@[simp] theorem State.reg_setcc (v : Word) (r' : Reg) : (s.setcc v).reg r' = s.reg r' := rfl
@[simp] theorem State.pc_setcc (v : Word) : (s.setcc v).pc = s.pc := rfl
@[simp] theorem State.cond_setcc (v : Word) : (s.setcc v).cond = condOf v := rfl
@[simp] theorem State.mem_setcc (v : Word) : (s.setcc v).mem = s.mem := rfl
@[simp] theorem State.run_setcc (v : Word) : (s.setcc v).run = s.run := rfl
@[simp] theorem State.wait_setcc (v : Word) : (s.setcc v).wait = s.wait := rfl
@[simp] theorem State.inq_setcc (v : Word) : (s.setcc v).inq = s.inq := rfl
@[simp] theorem State.outq_setcc (v : Word) : (s.setcc v).outq = s.outq := rfl

@[simp] theorem State.reg_setRun (r : RunState) (r' : Reg) : (s.setRun r).reg r' = s.reg r' := rfl
@[simp] theorem State.pc_setRun (r : RunState) : (s.setRun r).pc = s.pc := rfl
@[simp] theorem State.cond_setRun (r : RunState) : (s.setRun r).cond = s.cond := rfl
@[simp] theorem State.mem_setRun (r : RunState) : (s.setRun r).mem = s.mem := rfl
@[simp] theorem State.run_setRun (r : RunState) : (s.setRun r).run = r := rfl
@[simp] theorem State.wait_setRun (r : RunState) : (s.setRun r).wait = s.wait := rfl
@[simp] theorem State.inq_setRun (r : RunState) : (s.setRun r).inq = s.inq := rfl
@[simp] theorem State.outq_setRun (r : RunState) : (s.setRun r).outq = s.outq := rfl

@[simp] theorem State.reg_setWait (w : WaitState) (r' : Reg) : (s.setWait w).reg r' = s.reg r' := rfl
@[simp] theorem State.pc_setWait (w : WaitState) : (s.setWait w).pc = s.pc := rfl
@[simp] theorem State.cond_setWait (w : WaitState) : (s.setWait w).cond = s.cond := rfl
@[simp] theorem State.mem_setWait (w : WaitState) : (s.setWait w).mem = s.mem := rfl
@[simp] theorem State.run_setWait (w : WaitState) : (s.setWait w).run = s.run := rfl
@[simp] theorem State.wait_setWait (w : WaitState) : (s.setWait w).wait = w := rfl
@[simp] theorem State.inq_setWait (w : WaitState) : (s.setWait w).inq = s.inq := rfl
@[simp] theorem State.outq_setWait (w : WaitState) : (s.setWait w).outq = s.outq := rfl

@[simp] theorem State.reg_consoleOut (bs : List Byte) (r' : Reg) : (s.consoleOut bs).reg r' = s.reg r' := rfl
@[simp] theorem State.pc_consoleOut (bs : List Byte) : (s.consoleOut bs).pc = s.pc := rfl
@[simp] theorem State.cond_consoleOut (bs : List Byte) : (s.consoleOut bs).cond = s.cond := rfl
@[simp] theorem State.mem_consoleOut (bs : List Byte) : (s.consoleOut bs).mem = s.mem := rfl
@[simp] theorem State.run_consoleOut (bs : List Byte) : (s.consoleOut bs).run = s.run := rfl
@[simp] theorem State.wait_consoleOut (bs : List Byte) : (s.consoleOut bs).wait = s.wait := rfl
@[simp] theorem State.inq_consoleOut (bs : List Byte) : (s.consoleOut bs).inq = s.inq := rfl
@[simp] theorem State.outq_consoleOut (bs : List Byte) : (s.consoleOut bs).outq = s.outq ++ bs := rfl

@[simp] theorem State.reg_memWrite (a v : Word) (r' : Reg) : (s.memWrite a v).reg r' = s.reg r' := rfl
@[simp] theorem State.pc_memWrite (a v : Word) : (s.memWrite a v).pc = s.pc := rfl
@[simp] theorem State.cond_memWrite (a v : Word) : (s.memWrite a v).cond = s.cond := rfl
@[simp] theorem State.mem_memWrite (a v : Word) : (s.memWrite a v).mem = s.mem.write a v := rfl
@[simp] theorem State.run_memWrite (a v : Word) : (s.memWrite a v).run = s.run := rfl
@[simp] theorem State.wait_memWrite (a v : Word) : (s.memWrite a v).wait = s.wait := rfl
@[simp] theorem State.inq_memWrite (a v : Word) : (s.memWrite a v).inq = s.inq := rfl
@[simp] theorem State.outq_memWrite (a v : Word) : (s.memWrite a v).outq = s.outq := rfl

@[simp] theorem State.pc_writeResult (r : Reg) (v : Word) : (s.writeResult r v).pc = s.pc := rfl
@[simp] theorem State.cond_writeResult (r : Reg) (v : Word) : (s.writeResult r v).cond = condOf v := rfl
@[simp] theorem State.mem_writeResult (r : Reg) (v : Word) : (s.writeResult r v).mem = s.mem := rfl
@[simp] theorem State.run_writeResult (r : Reg) (v : Word) : (s.writeResult r v).run = s.run := rfl
@[simp] theorem State.wait_writeResult (r : Reg) (v : Word) : (s.writeResult r v).wait = s.wait := rfl
@[simp] theorem State.inq_writeResult (r : Reg) (v : Word) : (s.writeResult r v).inq = s.inq := rfl
@[simp] theorem State.outq_writeResult (r : Reg) (v : Word) : (s.writeResult r v).outq = s.outq := rfl

@[simp] theorem State.pc_link : s.link.pc = s.pc := rfl
@[simp] theorem State.cond_link : s.link.cond = s.cond := rfl
@[simp] theorem State.mem_link : s.link.mem = s.mem := rfl
@[simp] theorem State.run_link : s.link.run = s.run := rfl
@[simp] theorem State.wait_link : s.link.wait = s.wait := rfl
@[simp] theorem State.inq_link : s.link.inq = s.inq := rfl
@[simp] theorem State.outq_link : s.link.outq = s.outq := rfl

end Sys2Proof.Machine
end

