-- ==== Sys2Proof/Laws/Reads.lean ====
section
/-! SUPPORT. What a read of memory does (rules R52, R53), said once for each kind of read, and what it
leaves alone. -/

namespace Sys2Proof.Machine

theorem kbsrAddr_ne_kbdrAddr : Config.kbsrAddr ≠ Config.kbdrAddr := by decide

@[simp] theorem State.consoleIn_nil {s : State} (h : s.inq = []) : s.consoleIn = none := by
  simp [State.consoleIn, h]

@[simp] theorem State.consoleIn_cons {s : State} {b : Byte} {rest : List Byte} (h : s.inq = b :: rest) :
    s.consoleIn = some (b, { s with inq := rest }) := by
  simp [State.consoleIn, h]

/-- A poll with no input. -/
theorem State.poll_nil {s : State} (h : s.inq = []) : s.poll = s.memWrite Config.kbsrAddr 0#16 := by
  rw [State.poll, State.consoleIn_nil h]

/-- A poll that finds input. -/
theorem State.poll_cons {s : State} {b : Byte} {rest : List Byte} (h : s.inq = b :: rest) :
    s.poll = (({ s with inq := rest } : State).memWrite Config.kbsrAddr Config.kbsrReady).memWrite
      Config.kbdrAddr (zext16 b) := by
  rw [State.poll, State.consoleIn_cons h]

/-- A read off KBSR changes nothing (rule R53). -/
@[simp] theorem State.afterRead_of_ne {s : State} {a : Word} (h : a ≠ Config.kbsrAddr) :
    s.afterRead a = s := by
  simp [State.afterRead, h]

@[simp] theorem State.afterRead_kbsr (s : State) : s.afterRead Config.kbsrAddr = s.poll := by
  simp [State.afterRead]

/-- A read off KBSR returns the cell (rule R53). -/
@[simp] theorem State.readValue_of_ne {s : State} {a : Word} (h : a ≠ Config.kbsrAddr) :
    s.readValue a = s.mem.read a := by
  simp [State.readValue, h]

/-- A read of KBSR returns the ready pattern with input and 0 without (rules R52, R57). -/
theorem State.readValue_kbsr (s : State) :
    s.readValue Config.kbsrAddr = if s.inq = [] then 0#16 else Config.kbsrReady := by
  cases h : s.inq with
  | nil => simp [State.readValue, State.poll_nil h]
  | cons b rest => simp [State.readValue, State.poll_cons h, kbsrAddr_ne_kbdrAddr]

/-- What every poll leaves alone. -/
theorem State.poll_frame (s : State) :
    s.poll.regs = s.regs ∧ s.poll.pc = s.pc ∧ s.poll.cond = s.cond ∧ s.poll.run = s.run ∧
      s.poll.wait = s.wait ∧ s.poll.outq = s.outq := by
  cases h : s.inq with
  | nil => simp [State.poll_nil h, State.memWrite]
  | cons b rest => simp [State.poll_cons h, State.memWrite]

/-- What every read leaves alone. -/
theorem State.afterRead_frame (s : State) (a : Word) :
    (s.afterRead a).regs = s.regs ∧ (s.afterRead a).pc = s.pc ∧ (s.afterRead a).cond = s.cond ∧
      (s.afterRead a).run = s.run ∧ (s.afterRead a).wait = s.wait ∧ (s.afterRead a).outq = s.outq := by
  by_cases h : a = Config.kbsrAddr
  · subst h
    simpa using s.poll_frame
  · simp [h]

@[simp] theorem State.reg_afterRead (s : State) (a : Word) (r : Reg) : (s.afterRead a).reg r = s.reg r := by
  simp [State.reg, (s.afterRead_frame a).1]

@[simp] theorem State.pc_afterRead (s : State) (a : Word) : (s.afterRead a).pc = s.pc :=
  (s.afterRead_frame a).2.1

@[simp] theorem State.cond_afterRead (s : State) (a : Word) : (s.afterRead a).cond = s.cond :=
  (s.afterRead_frame a).2.2.1

@[simp] theorem State.run_afterRead (s : State) (a : Word) : (s.afterRead a).run = s.run :=
  (s.afterRead_frame a).2.2.2.1

@[simp] theorem State.wait_afterRead (s : State) (a : Word) : (s.afterRead a).wait = s.wait :=
  (s.afterRead_frame a).2.2.2.2.1

@[simp] theorem State.outq_afterRead (s : State) (a : Word) : (s.afterRead a).outq = s.outq :=
  (s.afterRead_frame a).2.2.2.2.2

/-- A read changes no cell but KBSR and KBDR. -/
theorem State.read_afterRead (s : State) (a b : Word) (h : b ∉ [Config.kbsrAddr, Config.kbdrAddr]) :
    (s.afterRead a).mem.read b = s.mem.read b := by
  simp only [List.mem_cons, List.not_mem_nil, or_false, not_or] at h
  by_cases ha : a = Config.kbsrAddr
  · subst ha
    cases hq : s.inq with
    | nil => simp [State.poll_nil hq, h.1]
    | cons c rest => simp [State.poll_cons hq, h.1, h.2]
  · simp [ha]

/-- A read keeps the canonical form. -/
theorem State.afterRead_wf {s : State} (a : Word) (h : s.mem.wf) : (s.afterRead a).mem.wf := by
  by_cases ha : a = Config.kbsrAddr
  · subst ha
    cases hq : s.inq with
    | nil => simpa [State.poll_nil hq] using Memory.write_wf _ _ h
    | cons b rest => simpa [State.poll_cons hq] using Memory.write_wf _ _ (Memory.write_wf _ _ h)
  · simpa [ha] using h

/-- A read takes at most one byte, from the head of `inq` (rules R31, R56). -/
theorem State.inq_afterRead (s : State) (a : Word) :
    (s.afterRead a).inq = if a = Config.kbsrAddr then s.inq.tail else s.inq := by
  by_cases ha : a = Config.kbsrAddr
  · subst ha
    cases hq : s.inq with
    | nil => simp [State.poll_nil hq, hq]
    | cons b rest => simp [State.poll_cons hq]
  · simp [ha]

end Sys2Proof.Machine
end

