-- ==== Sys2Proof/Laws/Scan.lean ====
section
/-! SUPPORT. What the string scan of PUTS and PUTSP does (rules R154, R156): its loop, its frame, and
that it ends when string reads poll. -/

namespace Sys2Proof.Machine

/-- One turn of the loop with polling reads. -/
theorem scanString_polls (bytes : Word → List Byte) (n : Nat) (a : Word) (s : State) :
    scanString true bytes (n + 1) a s =
      if s.readValue a = 0#16 then some (s.afterRead a)
      else scanString true bytes n (a + 1#16) ((s.afterRead a).consoleOut (bytes (s.readValue a))) := rfl

/-- One turn of the loop with plain reads. -/
theorem scanString_plain (bytes : Word → List Byte) (n : Nat) (a : Word) (s : State) :
    scanString false bytes (n + 1) a s =
      if s.mem.read a = 0#16 then some s
      else scanString false bytes n (a + 1#16) (s.consoleOut (bytes (s.mem.read a))) := rfl

/-- A relation between states that every read of the scan and every output keeps, and that composes,
holds between the start and the end of a scan. -/
theorem scanString_induct {polls : Bool} {bytes : Word → List Byte} (R : State → State → Prop)
    (refl : ∀ s, R s s) (trans : ∀ {s t u}, R s t → R t u → R s u)
    (read : ∀ s a, R s (s.afterRead a)) (out : ∀ s bs, R s (s.consoleOut bs)) :
    ∀ {n : Nat} {a : Word} {s t : State}, scanString polls bytes n a s = some t → R s t := by
  intro n
  induction n with
  | zero => intro a s t h; cases h
  | succ n ih =>
    intro a s t h
    cases polls with
    | true =>
      rw [scanString_polls] at h
      split at h
      · cases h
        exact read s a
      · exact trans (read s a) (trans (out _ _) (ih h))
    | false =>
      rw [scanString_plain] at h
      split at h
      · cases h
        exact refl s
      · exact trans (out _ _) (ih h)

/-- Everything a scan may change: KBSR and KBDR cells, `inq` from its head, `outq` at its end. -/
structure ScanFrame (s t : State) : Prop where
  regs : t.regs = s.regs
  pc : t.pc = s.pc
  cond : t.cond = s.cond
  run : t.run = s.run
  wait : t.wait = s.wait
  mem : ∀ b, b ∉ [Config.kbsrAddr, Config.kbdrAddr] → t.mem.read b = s.mem.read b
  wf : s.mem.wf → t.mem.wf
  inq : t.inq <:+ s.inq
  outq : s.outq <+: t.outq

/-- The frame of the string scan. -/
theorem scanString_frame {polls : Bool} {bytes : Word → List Byte} {n : Nat} {a : Word} {s t : State}
    (h : scanString polls bytes n a s = some t) : ScanFrame s t := by
  refine scanString_induct ScanFrame (fun s => ?_) (fun hst htu => ?_) (fun s a => ?_) (fun s bs => ?_) h
  · exact ⟨rfl, rfl, rfl, rfl, rfl, fun _ _ => rfl, id, List.suffix_rfl, List.prefix_rfl⟩
  · exact ⟨htu.regs.trans hst.regs, htu.pc.trans hst.pc, htu.cond.trans hst.cond,
      htu.run.trans hst.run, htu.wait.trans hst.wait,
      fun b hb => (htu.mem b hb).trans (hst.mem b hb), fun h => htu.wf (hst.wf h),
      htu.inq.trans hst.inq, hst.outq.trans htu.outq⟩
  · refine ⟨(s.afterRead_frame a).1, by simp, by simp, by simp, by simp, s.read_afterRead a,
      State.afterRead_wf a, ?_, by simp⟩
    rw [s.inq_afterRead]
    split
    · exact List.tail_suffix _
    · exact List.suffix_rfl
  · exact ⟨rfl, rfl, rfl, rfl, rfl, fun _ _ => rfl, id, List.suffix_rfl, List.prefix_append _ _⟩

/-- More words than a scan needs do not change its end. -/
theorem scanString_mono {polls : Bool} {bytes : Word → List Byte} {n k : Nat} (hk : n ≤ k) :
    ∀ {a : Word} {s t : State},
      scanString polls bytes n a s = some t → scanString polls bytes k a s = some t := by
  induction n generalizing k with
  | zero => intro a s t h; cases h
  | succ n ih =>
    intro a s t h
    obtain ⟨k, rfl⟩ : ∃ k', k = k' + 1 := ⟨k - 1, by omega⟩
    cases polls with
    | true =>
      rw [scanString_polls] at h ⊢
      split at h
      · next hz => rwa [if_pos hz]
      · next hz => rw [if_neg hz]; exact ih (by omega) h
    | false =>
      rw [scanString_plain] at h ⊢
      split at h
      · next hz => rwa [if_pos hz]
      · next hz => rw [if_neg hz]; exact ih (by omega) h

/-- A polling scan ends: it meets KBSR once every 65,536 words, and there it stops or consumes a byte
of `inq`. -/
theorem scanString_polls_ends (bytes : Word → List Byte) :
    ∀ (n : Nat) (a : Word) (s : State),
      Config.memSize * s.inq.length + (Config.kbsrAddr - a).toNat < n →
      ∃ t, scanString true bytes n a s = some t := by
  intro n
  induction n with
  | zero => intro a s h; omega
  | succ n ih =>
    intro a s h
    rw [scanString_polls]
    split
    · exact ⟨_, rfl⟩
    · next hz =>
      refine ih _ _ ?_
      simp only [State.inq_consoleOut, s.inq_afterRead]
      by_cases ha : a = Config.kbsrAddr
      · subst ha
        have hq : s.inq ≠ [] := fun hq => hz (by rw [s.readValue_kbsr, if_pos hq])
        obtain ⟨b, rest, hq⟩ := List.exists_cons_of_ne_nil hq
        have hd : (Config.kbsrAddr - (Config.kbsrAddr + 1#16)).toNat = 65535 := by decide
        simp only [hq, List.length_cons, if_pos, List.tail_cons, hd, Config.memSize] at h ⊢
        omega
      · have hd : (Config.kbsrAddr - (a + 1#16)).toNat + 1 = (Config.kbsrAddr - a).toNat := by
          have : Config.kbsrAddr - a ≠ 0#16 := fun h => ha (by
            have := BitVec.sub_eq_iff_eq_add.mp h
            simpa using this.symm)
          have e : Config.kbsrAddr - (a + 1#16) = Config.kbsrAddr - a - 1#16 := by
            rw [BitVec.sub_sub]
          rw [e]
          bv_omega
        simp only [if_neg ha]
        omega

/-- The bound of `scanBound` is enough. -/
theorem scanString_bound_ends (bytes : Word → List Byte) (a : Word) (s : State) :
    ∃ t, scanString true bytes (scanBound s) a s = some t := by
  refine scanString_polls_ends bytes _ a s ?_
  have := (Config.kbsrAddr - a).isLt
  simp only [scanBound, Config.memSize]
  omega

end Sys2Proof.Machine
end

