-- ==== Sys2Proof/Laws/Trap.lean ====
section
/-! SUPPORT. What a TRAP can do (rules R150 to R159), said once for all vectors. -/

namespace Sys2Proof.Machine

/-- Everything TRAP changes but KBSR and KBDR cells, `inq` and `outq`: the link register, and `run` or
`wait` for one service each. -/
structure TrapFrame (s t : State) : Prop where
  regs : t.regs = s.link.regs
  pc : t.pc = s.pc
  cond : t.cond = s.cond
  mem : ∀ b, b ∉ [Config.kbsrAddr, Config.kbdrAddr] → t.mem.read b = s.mem.read b
  wf : s.mem.wf → t.mem.wf
  inq : t.inq <:+ s.inq
  outq : s.outq <+: t.outq
  control : (t.run = s.run ∧ t.wait = s.wait) ∨ (t.run = .halted ∧ t.wait = s.wait) ∨
    (t.run = s.run ∧ t.wait ≠ .none)

theorem TrapFrame.of_scan {s t : State} (h : ScanFrame s.link t) : TrapFrame s t :=
  ⟨h.regs, h.pc, h.cond, h.mem, h.wf, h.inq, h.outq, .inl ⟨h.run, h.wait⟩⟩

/-- A string service ends, since its reads poll. -/
theorem serviceString_next (bytes : Word → List Byte) (s : State) :
    ∃ t, serviceString Config.stringReadPolls bytes s = .next t ∧
      scanString true bytes (scanBound s) (s.reg .r0) s = some t := by
  obtain ⟨t, h⟩ := scanString_bound_ends bytes (s.reg .r0) s
  exact ⟨t, by simp [serviceString, Config.stringReadPolls, h], h⟩

/-- A TRAP of any vector answers a next state, inside its frame. -/
theorem execTrap_next (v : BitVec 8) (s : State) :
    ∃ t, execTrap v s = .next t ∧ TrapFrame s t := by
  unfold execTrap runService
  cases serviceOf v with
  | puts =>
    obtain ⟨t, h, hs⟩ := serviceString_next putsBytes s.link
    exact ⟨t, h, .of_scan (scanString_frame hs)⟩
  | putsp =>
    obtain ⟨t, h, hs⟩ := serviceString_next putspBytes s.link
    exact ⟨t, h, .of_scan (scanString_frame hs)⟩
  | out =>
    exact ⟨_, rfl, rfl, rfl, rfl, fun _ _ => rfl, id, List.suffix_rfl, List.prefix_append _ _,
      .inl ⟨rfl, rfl⟩⟩
  | undefinedVector =>
    exact ⟨_, rfl, rfl, rfl, rfl, fun _ _ => rfl, id, List.suffix_rfl, List.prefix_rfl, .inl ⟨rfl, rfl⟩⟩
  | halt =>
    exact ⟨_, rfl, rfl, rfl, rfl, fun _ _ => rfl, id, List.suffix_rfl, List.prefix_append _ _,
      .inr (.inl ⟨rfl, rfl⟩)⟩
  | getc =>
    exact ⟨_, rfl, rfl, rfl, rfl, fun _ _ => rfl, id, List.suffix_rfl, List.prefix_rfl,
      .inr (.inr ⟨rfl, by simp [serviceGetc]⟩)⟩
  | input =>
    exact ⟨_, rfl, rfl, rfl, rfl, fun _ _ => rfl, id, List.suffix_rfl, List.prefix_append _ _,
      .inr (.inr ⟨rfl, by simp [serviceInput]⟩)⟩

end Sys2Proof.Machine
end

