-- ==== Sys2Proof/Laws/Step.lean ====
section
/-! SUPPORT. What one step can do: the three kinds of step, and what a completion does. -/

namespace Sys2Proof.Machine

/-- A step that answers a next state runs an instruction, or completes GETC or IN (rules R33, R80). -/
theorem step_cases {s t : State} (h : step s = .next t) :
    s.run = .running ∧
      ((s.wait = .none ∧ instructionStep s = .next t) ∨ (s.wait = .getcWait ∧ completeGetc s = .next t) ∨
        (s.wait = .inWait ∧ completeIn s = .next t)) := by
  unfold step blockStep at h
  cases hr : s.run <;> rw [hr] at h <;> try cases h
  cases hw : s.wait <;> rw [hw] at h
  · exact ⟨rfl, .inl ⟨rfl, h⟩⟩
  · exact ⟨rfl, .inr (.inl ⟨rfl, h⟩)⟩
  · exact ⟨rfl, .inr (.inr ⟨rfl, h⟩)⟩

/-- An instruction step is `exec` of the fetched word on the state after the fetch (rule R81). -/
theorem instructionStep_eq (s : State) :
    instructionStep s = exec (decode (s.readValue s.pc)) ((s.afterRead s.pc).setPc (s.pc + 1#16)) := rfl

/-- The completion of GETC (rule R152). -/
theorem completeGetc_cases {s t : State} (h : completeGetc s = .next t) :
    ∃ b rest, s.inq = b :: rest ∧
      t = (({ s with inq := rest } : State).writeResult .r0 (zext16 b)).setWait .none := by
  unfold completeGetc at h
  cases hq : s.inq with
  | nil => rw [State.consoleIn_nil hq] at h; cases h
  | cons b rest =>
    rw [State.consoleIn_cons hq] at h
    cases h
    exact ⟨b, rest, rfl, rfl⟩

/-- The completion of IN (rule R155). -/
theorem completeIn_cases {s t : State} (h : completeIn s = .next t) :
    ∃ b rest, s.inq = b :: rest ∧
      t = ((({ s with inq := rest } : State).consoleOut [b]).writeResult .r0 (zext16 b)).setWait .none := by
  unfold completeIn at h
  cases hq : s.inq with
  | nil => rw [State.consoleIn_nil hq] at h; cases h
  | cons b rest =>
    rw [State.consoleIn_cons hq] at h
    cases h
    exact ⟨b, rest, rfl, rfl⟩

end Sys2Proof.Machine
end

