-- ==== Sys2Proof/Tests/Slice0.lean ====
section
/-! SUPPORT. The model's own tests. Every expected value is from spec/: the vectors of
95_test_vectors.md, the worked examples of the rules, or hand calculation from the rules. The
`witness_` theorems show, for each statement with hypotheses, states and operands that meet them. -/

namespace Sys2Proof.Tests

open Machine

/-! ## Helpers -/

/-- The next state of an outcome. -/
def nextOf (o : Host.Outcome State Fault Refusal) : Option State :=
  match o with
  | .next s => some s
  | .fault _ => none
  | .refused _ => none

/-- The fault of an outcome. -/
def faultOf (o : Host.Outcome State Fault Refusal) : Option Fault :=
  match o with
  | .next _ => none
  | .fault r => some r
  | .refused _ => none

/-- A running block, otherwise as after reset. -/
def running : State := { State.reset with run := .running }

/-- A running block with one word at an address and `pc` there. -/
def at_ (pc w : Word) (s : State) : State := { s with pc := pc, mem := s.mem.write pc w }

/-- One register of the state after one step. -/
def regAfter (r : Reg) (s : State) : Option Word := (nextOf (step s)).map fun t => t.reg r

/-- One cell after one step. -/
def cellAfter (a : Word) (s : State) : Option Word := (nextOf (step s)).map fun t => t.mem.read a

/-- `pc` and the flag after one step. -/
def pcCondAfter (s : State) : Option (Word × Cond) := (nextOf (step s)).map fun t => (t.pc, t.cond)

/-! ## Well-formedness: each check refuses its ill-formed term (rule R89) -/

theorem test_wellFormed_refuses_rti : Instr.rti.wellFormed = false := by decide
theorem test_wellFormed_refuses_res : Instr.res.wellFormed = false := by decide
theorem test_wellFormed_accepts_trap : (Instr.trap 0xFF#8).wellFormed = true := by decide

/-! ## Decoding words written out from the formats of rule R84 -/

theorem test_decode_add_reg : decode 0b0001001010000011#16 = .addReg .r1 .r2 .r3 := by decide
theorem test_decode_add_imm : decode 0b0001001010111111#16 = .addImm .r1 .r2 0b11111#5 := by decide
theorem test_decode_and_reg : decode 0b0101011001000010#16 = .andReg .r3 .r1 .r2 := by decide
theorem test_decode_and_imm : decode 0b0101010001110000#16 = .andImm .r2 .r1 0b10000#5 := by decide
theorem test_decode_not : decode 0b1001100101111111#16 = .notReg .r4 .r5 := by decide
theorem test_decode_br_n : decode 0b0000100100000000#16 = .br true false false 0b100000000#9 := by decide
theorem test_decode_br_zp : decode 0b0000011000000011#16 = .br false true true 3#9 := by decide
theorem test_decode_jmp : decode 0b1100000010000000#16 = .jmp .r2 := by decide
theorem test_decode_jsr : decode 0b0100110000000000#16 = .jsr 0b10000000000#11 := by decide
theorem test_decode_jsrr : decode 0b0100000011000000#16 = .jsrr .r3 := by decide
theorem test_decode_ld : decode 0b0010010000000101#16 = .ld .r2 5#9 := by decide
theorem test_decode_st : decode 0b0011011000000100#16 = .st .r3 4#9 := by decide
theorem test_decode_ldr : decode 0b0110011110111110#16 = .ldr .r3 .r6 0b111110#6 := by decide
theorem test_decode_str : decode 0b0111001010000000#16 = .str .r1 .r2 0#6 := by decide
theorem test_decode_rti : decode 0b1000111111111111#16 = .rti := by decide
theorem test_decode_ldi : decode 0b1010001000000010#16 = .ldi .r1 2#9 := by decide
theorem test_decode_sti : decode 0b1011000111111110#16 = .sti .r0 0b111111110#9 := by decide
theorem test_decode_res : decode 0b1101000100100011#16 = .res := by decide
theorem test_decode_lea : decode 0b1110000011111111#16 = .lea .r0 255#9 := by decide
theorem test_decode_trap : decode 0b1111011100100101#16 = .trap 0x25#8 := by decide

theorem test_encode_not : encode (.notReg .r4 .r5) = 0x997F#16 := by decide
theorem test_encode_jsr : encode (.jsr 0x400#11) = 0x4C00#16 := by decide

/-- Rule R91: a row of more than one word is rejected by name. -/
theorem test_decodeBits_rejects_two_words :
    (match decodeBits 32 0x1283 with
    | .ok _ => none
    | .error r => some r) = some .longerThanOneWord := by decide

/-! ## Operate (V-ADD, V-AND, V-NOT) -/

theorem test_add_overflow_wraps :
    exec (.addReg .r0 .r1 .r2) ((running.setReg .r1 0x7FFF#16).setReg .r2 1#16) =
      .next ((((running.setReg .r1 0x7FFF#16).setReg .r2 1#16).setReg .r0 0x8000#16).setcc 0x8000#16) := rfl

theorem test_add_same_register_wraps_to_zero :
    regAfter .r3 (at_ 0x3000#16 0x16C3#16 (running.setReg .r3 0x8000#16)) = some 0#16 := by decide

theorem test_add_most_negative_immediate :
    regAfter .r2 (at_ 0x3000#16 0x14B0#16 (running.setReg .r2 5#16)) = some 0xFFF5#16 := by decide

theorem test_and_register :
    regAfter .r3 (at_ 0x3000#16 0x5642#16 ((running.setReg .r1 0xF0F0#16).setReg .r2 0x0FF0#16)) =
      some 0x00F0#16 := by decide

theorem test_and_negative_immediate_keeps_high_bits :
    regAfter .r2 (at_ 0x3000#16 0x5470#16 (running.setReg .r1 0xFFFF#16)) = some 0xFFF0#16 := by decide

theorem test_and_zero_sets_z :
    pcCondAfter (at_ 0x3000#16 0x5DA0#16 { running.setReg .r6 0xABCD#16 with cond := .n }) =
      some (0x3001#16, .z) := by decide

theorem test_not_with_ignored_bits_clear :
    regAfter .r2 (at_ 0x3000#16 0x9440#16 (running.setReg .r1 0xFFFF#16)) = some 0#16 := by decide

/-! ## Control (V-BR, V-JMP, V-JSR, V-JSRR) -/

theorem test_br_taken : pcCondAfter (at_ 0x3000#16 0x0403#16 running) = some (0x3004#16, .z) := by decide

theorem test_br_wraps_at_the_top :
    pcCondAfter (at_ 0xFFFF#16 0x0E01#16 { running with cond := .p }) = some (0x0001#16, .p) := by decide

theorem test_jmp : pcCondAfter (at_ 0x3000#16 0xCFFF#16 (running.setReg .r7 0x1111#16)) =
    some (0x1111#16, .z) := by decide

theorem test_jsr_target : pcCondAfter (at_ 0x3000#16 0x4C00#16 running) = some (0x2C01#16, .z) := by decide
theorem test_jsr_link : regAfter .r7 (at_ 0xFFFF#16 0x4801#16 running) = some 0#16 := by decide

theorem test_jsrr_through_r7 :
    pcCondAfter (at_ 0x3000#16 0x41C0#16 (running.setReg .r7 0x1234#16)) = some (0x3001#16, .z) := by decide

/-- V-JSRR-2 with `JSRR_LINK_FIRST` false. -/
theorem test_jsrr_base_first :
    (jumpLinkRegister false .r7 ((running.setReg .r7 0x1234#16).setPc 0x3001#16)).pc = 0x1234#16 := by decide

/-! ## Loads and LEA (V-LD, V-LDI, V-LDR, V-LEA) -/

theorem test_ld_own_word : regAfter .r0 (at_ 0x3000#16 0x21FF#16 running) = some 0x21FF#16 := by decide

theorem test_ld_kbsr_polls :
    cellAfter 0xFE02#16 (at_ 0xFE01#16 0x21FE#16 { running with inq := [0x41#8] }) = some 0x0041#16 := by decide

theorem test_ldi_kbsr_reads_ready :
    regAfter .r1 ((at_ 0x3000#16 0xA202#16 { running with inq := [0x7A#8, 0x7B#8] }).memWrite 0x3003#16 0xFE00#16) =
      some 0x8000#16 := by decide

theorem test_ldi_kbdr_is_plain :
    (nextOf (step (((at_ 0x3000#16 0xA202#16 { running with inq := [0x7A#8] }).memWrite 0x3003#16 0xFE02#16).memWrite
      0xFE02#16 0x0041#16))).map (fun t => (t.reg .r1, t.inq)) = some (0x0041#16, [0x7A#8]) := by decide

theorem test_ldr_destination_is_base :
    regAfter .r1 ((at_ 0x3000#16 0x6241#16 (running.setReg .r1 0xFFFF#16)).memWrite 0#16 0x8001#16) =
      some 0x8001#16 := by decide

theorem test_lea_sets_the_flag : pcCondAfter (at_ 0x7F00#16 0xE0FF#16 running) = some (0x7F01#16, .n) := by decide

theorem test_lea_does_not_poll :
    (nextOf (step (at_ 0xFDFF#16 0xE000#16 { running with inq := [0x41#8] }))).map (fun t => (t.reg .r0, t.inq)) =
      some (0xFE00#16, [0x41#8]) := by decide

/-! ## Stores (V-ST, V-STI, V-STR) -/

theorem test_st : cellAfter 0x3005#16 (at_ 0x3000#16 0x3604#16 (running.setReg .r3 0xBEEF#16)) =
    some 0xBEEF#16 := by decide

theorem test_sti_through_kbsr_with_input :
    cellAfter 0x8000#16 (at_ 0xFE01#16 0xB1FE#16 { running.setReg .r0 0x5555#16 with inq := [0x41#8] }) =
      some 0x5555#16 := by decide

theorem test_sti_through_kbsr_without_input :
    cellAfter 0#16 (at_ 0xFE01#16 0xB1FE#16 (running.setReg .r0 0x5555#16)) = some 0x5555#16 := by decide

theorem test_str_wraps :
    cellAfter 0#16 (at_ 0x3000#16 0x7281#16 ((running.setReg .r1 0x1234#16).setReg .r2 0xFFFF#16)) =
      some 0x1234#16 := by decide

theorem test_str_source_is_base :
    cellAfter 0x3FFF#16 (at_ 0x3000#16 0x74BF#16 (running.setReg .r2 0x4000#16)) = some 0x4000#16 := by decide

/-! ## TRAP (V-TRAP) -/

theorem test_trap_getc_waits :
    (nextOf (step (at_ 0x3000#16 0xF020#16 running))).map (fun t => (t.wait, t.reg .r7, t.reg .r0)) =
      some (.getcWait, 0x3001#16, 0#16) := by decide

theorem test_getc_completion_zero_extends :
    (nextOf (step { running with wait := .getcWait, inq := [0xC8#8], cond := .n })).map
      (fun t => (t.reg .r0, t.cond, t.wait, t.inq)) = some (0x00C8#16, .p, .none, []) := by decide

theorem test_out_ignores_the_high_byte :
    (nextOf (step (at_ 0x3000#16 0xF021#16 (running.setReg .r0 0xFF0A#16)))).map (fun t => t.outq) =
      some [0x0A#8] := by decide

/-- V-TRAP-8: 0x4100 is not a terminator, and bits 15:8 are ignored. -/
theorem test_puts :
    (nextOf (step (((at_ 0x3000#16 0xF022#16 (running.setReg .r0 0x4000#16)).memWrite 0x4000#16 0x4100#16).memWrite
      0x4001#16 0x1248#16))).map (fun t => t.outq) = some [0x00#8, 0x48#8] := by decide

/-- V-TRAP-12: a string that spans KBSR, with input. -/
theorem test_puts_over_kbsr :
    (nextOf (step ((at_ 0x3000#16 0xF022#16 { running.setReg .r0 0xFDFF#16 with inq := [0x7A#8] }).memWrite
      0xFDFF#16 0x0041#16))).map (fun t => (t.outq, t.mem.read 0xFE02#16, t.inq)) =
      some ([0x41#8, 0x00#8], 0x007A#16, []) := by decide

theorem test_in_completion_echoes :
    (nextOf (step { running with wait := .inWait, inq := [0x62#8] })).map
      (fun t => (t.reg .r0, t.outq, t.inq)) = some (0x0062#16, [0x62#8], []) := by decide

/-- V-TRAP-15. -/
theorem test_putsp :
    (nextOf (step (((at_ 0x3000#16 0xF024#16 (running.setReg .r0 0x4000#16)).memWrite 0x4000#16 0x4100#16).memWrite
      0x4001#16 0x0043#16))).map (fun t => t.outq) = some [0x00#8, 0x41#8, 0x43#8] := by decide

theorem test_halt_with_ignored_bits :
    (nextOf (step (at_ 0x3000#16 0xF725#16 running))).map (fun t => (t.run, t.pc, t.reg .r7)) =
      some (.halted, 0x3001#16, 0x3001#16) := by decide

theorem test_undefined_vector :
    (nextOf (step (at_ 0x3000#16 0xF026#16 { running with cond := .n }))).map
      (fun t => (t.reg .r7, t.cond, t.run, t.outq)) = some (0x3001#16, .n, .running, []) := by decide

/-! ## Invalid opcodes (V-INV) -/

theorem test_rti_is_fatal :
    (nextOf (step (at_ 0x5000#16 0x8FFF#16 running))).map (fun t => (t.run, t.pc)) =
      some (.fatal 8#4, 0x5001#16) := by decide

theorem test_reserved_is_fatal :
    (nextOf (step (at_ 0x4000#16 0xD123#16 running))).map (fun t => (t.run, t.pc)) =
      some (.fatal 13#4, 0x4001#16) := by decide

/-! ## The cycle, the host and the loader (V-HOST, V-LOAD) -/

theorem test_step_not_started : faultOf (step State.reset) = some .notStarted := by decide
theorem test_step_after_the_end : faultOf (step { running with run := .fatal 8#4 }) = some .runEnded := by decide
theorem test_step_waits_for_input : faultOf (step { running with wait := .inWait }) = some .awaitingInput := by decide

/-- Rule R202: fetching an empty memory is a no-op. -/
theorem test_empty_memory_is_a_nop :
    pcCondAfter { running with pc := 0xFFFF#16 } = some (0#16, .z) := by decide

theorem test_withFetchWord_runs_it :
    (nextOf (step (State.reset.withFetchWord 16 0x12BF))).map (fun t => (t.reg .r1, t.pc, t.cond)) =
      some (0xFFFF#16, 0x3001#16, .n) := by decide

/-- S6 and V-LOAD-6. -/
theorem test_load : loadImage [0x30#8, 0x00#8, 0x12#8, 0x34#8, 0x56#8] [] = [(0x3000, 0x1234#16)] := by decide

/-- V-LOAD-5. -/
theorem test_load_does_not_wrap :
    loadImage [0xFF#8, 0xFF#8, 0xAA#8, 0xBB#8, 0xCC#8, 0xDD#8] [] = [(0xFFFF, 0xAABB#16)] ∧
      loadReport [0xFF#8, 0xFF#8, 0xAA#8, 0xBB#8, 0xCC#8, 0xDD#8] = (some 0xFFFF#16, 1) := by decide

/-- V-LOAD-7, then `start` (V-HOST-1). -/
theorem test_boot :
    (boot [[0x30#8, 0x00#8, 0x11#8, 0x11#8, 0x22#8, 0x22#8], [0x30#8, 0x01#8, 0x33#8, 0x33#8]] State.reset).map
      (fun t => (t.mem, t.run, t.pc)) =
      some ([(0x3000, 0x1111#16), (0x3001, 0x3333#16)], .running, 0x3000#16) := by decide

/-- V-HOST-2 and V-HOST-3. -/
theorem test_interrupt_between_instructions_only :
    (hostInterrupt running).map (fun t => t.run) = some .interrupted ∧
      hostInterrupt { running with wait := .getcWait } = none := by decide

theorem test_write_zero_removes_the_entry :
    Memory.write [(1, 5#16), (2, 6#16)] 1#16 0#16 = [(2, 6#16)] := by decide

/-! ## Witnesses: each statement's hypotheses are met -/

theorem witness_IgnoredBitsDoNotChangeTheInstruction :
    0x1042#16 &&& (decode 0x1042#16).usedBits = 0x105A#16 &&& (decode 0x1042#16).usedBits := by decide

/-- One word for each clause. -/
theorem witness_DecodeReadsTheFieldsOfEachFormat :
    opcodeField 0x0FFF#16 = 0#4 ∧
    (opcodeField 0x1FDF#16 = 1#4 ∧ (0x1FDF#16).getLsbD 5 = false) ∧
    (opcodeField 0x1020#16 = 1#4 ∧ (0x1020#16).getLsbD 5 = true) ∧
    opcodeField 0x2FFF#16 = 2#4 ∧ opcodeField 0x3000#16 = 3#4 ∧
    (opcodeField 0x4800#16 = 4#4 ∧ (0x4800#16).getLsbD 11 = true) ∧
    (opcodeField 0x47FF#16 = 4#4 ∧ (0x47FF#16).getLsbD 11 = false) ∧
    (opcodeField 0x5FDF#16 = 5#4 ∧ (0x5FDF#16).getLsbD 5 = false) ∧
    (opcodeField 0x5020#16 = 5#4 ∧ (0x5020#16).getLsbD 5 = true) ∧
    opcodeField 0x6FFF#16 = 6#4 ∧ opcodeField 0x7000#16 = 7#4 ∧ opcodeField 0x8FFF#16 = 8#4 ∧
    opcodeField 0x9000#16 = 9#4 ∧ opcodeField 0xAFFF#16 = 10#4 ∧ opcodeField 0xB000#16 = 11#4 ∧
    opcodeField 0xCFFF#16 = 12#4 ∧ opcodeField 0xD000#16 = 13#4 ∧ opcodeField 0xEFFF#16 = 14#4 ∧
    opcodeField 0xF000#16 = 15#4 := by decide

/-- The ends of both illegal ranges, and their neighbours. -/
theorem witness_OnlyOpcodes8And13AreIllegal :
    opcodeField 0x8000#16 = 8#4 ∧ opcodeField 0x8FFF#16 = 8#4 ∧ opcodeField 0xD000#16 = 13#4 ∧
    opcodeField 0xDFFF#16 = 13#4 ∧
    ¬ (opcodeField 0x7FFF#16 = 8#4 ∨ opcodeField 0x7FFF#16 = 13#4) ∧
    ¬ (opcodeField 0x9000#16 = 8#4 ∨ opcodeField 0x9000#16 = 13#4) ∧
    ¬ (opcodeField 0xCFFF#16 = 8#4 ∨ opcodeField 0xCFFF#16 = 13#4) ∧
    ¬ (opcodeField 0xE000#16 = 8#4 ∨ opcodeField 0xE000#16 = 13#4) := by decide

/-- The legal clause: a next state whose run state was fatal before. -/
theorem witness_OnlyOpcodes8And13AreIllegal_legal :
    ∃ t, exec (.jmp .r0) { running with run := .fatal 8#4 } = .next t ∧ t.run = .fatal 8#4 :=
  ⟨_, rfl, rfl⟩

/-- Rule S1 of 95_test_vectors.md, and both ends of the range of widths. -/
theorem witness_SignExtensionCopiesTheTopBit :
    sext 0b10000#5 = 0xFFF0#16 ∧ sext 0b01111#5 = 0x000F#16 ∧ sext 0x100#9 = 0xFF00#16 ∧
    sext 0x400#11 = 0xFC00#16 ∧ sext 0b100000#6 = 0xFFE0#16 ∧ sext 1#1 = 0xFFFF#16 ∧
    sext 0x8000#16 = 0x8000#16 ∧ 1 ≤ 1 ∧ 16 ≤ 16 := by decide

/-- Rule S2 of 95_test_vectors.md: both ends of each clause. -/
theorem witness_SetccFollowsTheSignOfTheValue :
    condOf 0#16 = .z ∧
    (0x8000#16 ≠ 0#16 ∧ (0x8000#16).getLsbD 15 = true ∧ (0xFFFF#16).getLsbD 15 = true) ∧
    (0x0001#16 ≠ 0#16 ∧ (0x0001#16).getLsbD 15 = false ∧ (0x7FFF#16).getLsbD 15 = false) := by decide

/-- S3 of 95_test_vectors.md. -/
theorem witness_ImmediateAndRegisterFormsAgree :
    (running.setReg .r2 0xFFFD#16).reg .r2 = sext 0b11101#5 := by decide

theorem witness_FlagFollowsTheRegisterWritten :
    (Instr.notReg .r0 .r1).flagSource = some .r0 ∧ (∃ t, exec (.notReg .r0 .r1) running = .next t) ∧
    (∃ t, completeGetc { running with inq := [0x80#8] } = .next t) ∧
    (∃ t, completeIn { running with inq := [0x80#8] } = .next t) :=
  ⟨rfl, ⟨_, rfl⟩, ⟨_, rfl⟩, ⟨_, rfl⟩⟩

/-- V-SUB: 7 − 9. -/
theorem witness_SubtractionByNotAndAdd :
    Reg.r1 ≠ Reg.r2 ∧ (7#16 : Word) - 9#16 = 0xFFFE#16 := by decide

theorem witness_JsrAndJsrrAlwaysSaveTheReturnAddress :
    (Instr.jsr 0x400#11 = .jsr 0x400#11 ∨ Instr.jsr 0x400#11 = .jsrr .r7) ∧
    (Instr.jsrr .r7 = .jsr 0x400#11 ∨ Instr.jsrr .r7 = .jsrr .r7) := by decide

/-- The three clauses of `ReadEffect`: off KBSR at its neighbours, and at KBSR without and with input. -/
theorem witness_ReadOfKbsrPollsTheConsole :
    0xFDFF#16 ≠ Config.kbsrAddr ∧ 0xFE01#16 ≠ Config.kbsrAddr ∧ Config.kbsrAddr = 0xFE00#16 ∧
    (memRead Config.kbsrAddr running).1 = 0#16 ∧
    (memRead Config.kbsrAddr { running with inq := [0#8] }).1 = 0x8000#16 := by decide

theorem witness_ReadElsewhereHasNoSideEffect :
    0xFDFF#16 ≠ Config.kbsrAddr ∧ 0#16 ≠ Config.kbsrAddr ∧ 0xFFFF#16 ≠ Config.kbsrAddr := by decide

theorem witness_CanonicalMemoryIsDeterminedByItsCells :
    Memory.wf [(0, 1#16), (0xFFFF, 2#16)] ∧
      ∀ a : Word, Memory.read [(0, 1#16), (0xFFFF, 2#16)] a =
        ((Memory.write [] 0xFFFF#16 2#16).write 0#16 1#16).read a :=
  ⟨by decide, fun _ => rfl⟩

theorem witness_KbsrReadsOverwriteAndLoseCharacters :
    ({ running with inq := [0x41#8, 0x42#8] } : State).inq = 0x41#8 :: 0x42#8 :: [] ∧
      (memRead Config.kbsrAddr (memRead Config.kbsrAddr { running with inq := [0x41#8, 0x42#8] }).2).2.mem.read
        Config.kbdrAddr = 0x0042#16 := by decide

/-- The three clauses of `LoadResult` for LD, LDR and LDI's second read, and STI's two pointer cells. -/
theorem witness_loads_and_sti :
    ((0x3001#16 : Word) + sext 5#9 ≠ Config.kbsrAddr) ∧
    ((0xFE02#16 : Word) + sext 0x1FE#9 = Config.kbsrAddr) ∧
    (running.setReg .r1 0xFDE0#16).reg .r1 + sext 0b011111#6 ≠ Config.kbsrAddr ∧
    (running.setReg .r1 0xFE20#16).reg .r1 + sext 0b100000#6 = Config.kbsrAddr ∧
    (memRead 0x3003#16 (running.memWrite 0x3003#16 0xFE00#16)).1 = Config.kbsrAddr ∧
    (memRead 0x3003#16 running).1 ≠ Config.kbsrAddr := by decide

/-- V-ST-2. -/
theorem witness_StoredWordIsTheNextInstruction :
    ∃ s t : State, exec (.st .r0 0#9) s = .next t ∧ s.pc + sext 0#9 = s.pc ∧ s.pc ≠ Config.kbsrAddr ∧
      s.run = .running ∧ s.wait = .none ∧ (nextOf (step t)).map (fun u => (u.run, u.pc)) = some (.halted, 0x3002#16) :=
  ⟨(running.setReg .r0 0xF025#16).setPc 0x3001#16, _, rfl, by decide⟩

theorem witness_GetcWaitsAndThenReadsOneByte :
    ∃ s : State, s.run = .running ∧ s.wait = .getcWait ∧ s.inq = 0#8 :: [] :=
  ⟨{ running with wait := .getcWait, inq := [0#8] }, by decide⟩

theorem witness_InPromptsWaitsReadsAndEchoes :
    ∃ s : State, s.run = .running ∧ s.wait = .inWait ∧ s.inq = 0xFF#8 :: [0x41#8] :=
  ⟨{ running with wait := .inWait, inq := [0xFF#8, 0x41#8] }, by decide⟩

/-- Both ends of both ranges; 0x20 and 0x25 are in neither. -/
theorem witness_UndefinedVectorOnlySavesTheReturnAddress :
    (∀ v ∈ [0x00#8, 0x1F#8, 0x26#8, 0xFF#8], v.toNat < 0x20 ∨ 0x25 < v.toNat) ∧
    (∀ v ∈ [0x20#8, 0x25#8], ¬ (v.toNat < 0x20 ∨ 0x25 < v.toNat)) := by decide

/-- V-TRAP-10: a string over the top of memory, for PUTS and PUTSP. -/
theorem witness_strings :
    ∃ (s : State) (ws : List Word), ws = [0x0041#16, 0x4200#16] ∧
      (∀ k (h : k < ws.length), s.reg .r0 + BitVec.ofNat 16 k ≠ Config.kbsrAddr ∧
        s.mem.read (s.reg .r0 + BitVec.ofNat 16 k) = ws[k] ∧ ws[k] ≠ 0#16) ∧
      s.reg .r0 + BitVec.ofNat 16 ws.length ≠ Config.kbsrAddr ∧
      s.mem.read (s.reg .r0 + BitVec.ofNat 16 ws.length) = 0#16 :=
  ⟨{ running.setReg .r0 0xFFFF#16 with mem := [(0, 0x4200#16), (0xFFFF, 0x0041#16)] },
    [0x0041#16, 0x4200#16], rfl, by decide, by decide, by decide⟩

/-- A memory with no zero word, for the hang: every cell written with one word. -/
theorem witness_ScanWithoutPollsHangsWithoutAZeroWord :
    ∃ m : Memory, ∀ a : Word, m.read a ≠ 0#16 := by
  have key : ∀ n a, a < n → Memory.readAt ((List.range n).map fun k => (k, 1#16)) a = 1#16 := by
    intro n
    have app : ∀ (m m' : Memory) (a : Nat), (∃ c ∈ m, c.1 = a) → Memory.readAt (m ++ m') a = m.readAt a := by
      intro m
      induction m with
      | nil => rintro _ _ ⟨c, hc, -⟩; cases hc
      | cons c m ih =>
        intro m' a h
        by_cases hc : c.1 = a
        · simp [Memory.readAt, hc]
        · simp only [List.cons_append, Memory.readAt, hc, if_false]
          exact ih m' a (by simpa [hc] using h)
    have app' : ∀ (m m' : Memory) (a : Nat), (∀ c ∈ m, c.1 ≠ a) → Memory.readAt (m ++ m') a = Memory.readAt m' a := by
      intro m
      induction m with
      | nil => intro _ _ _; rfl
      | cons c m ih =>
        intro m' a h
        have hc : c.1 ≠ a := h c (by simp)
        simp only [List.cons_append, Memory.readAt, hc, if_false]
        exact ih m' a fun d hd => h d (by simp [hd])
    induction n with
    | zero => intro a h; omega
    | succ n ih =>
      intro a h
      rw [List.range_succ, List.map_append]
      by_cases ha : a < n
      · rw [app _ _ _ ⟨(a, 1#16), by simpa using ha, rfl⟩, ih a ha]
      · have : a = n := by omega
        subst this
        rw [app' _ _ _ fun c hc => by
          obtain ⟨k, hk, rfl⟩ := List.mem_map.mp hc
          have := List.mem_range.mp hk
          simp only
          omega]
        simp [Memory.readAt]
  refine ⟨(List.range 65536).map fun k => (k, 1#16), fun a => ?_⟩
  rw [Memory.read, key 65536 a.toNat a.isLt]
  decide

/-- V-INV-1, V-INV-3 and V-INV-4. -/
theorem witness_StateAfterAFatalDecodeError :
    (at_ 0x3000#16 0x8000#16 running).readValue 0x3000#16 = 0x8000#16 ∧
    (at_ 0x3000#16 0xDFFF#16 running).readValue 0x3000#16 = 0xDFFF#16 ∧
    (nextOf (step { running with pc := 0xFE00#16, inq := [0x41#8] })).map
      (fun t => (t.run, t.pc, t.mem.read 0xFE02#16, t.inq)) =
      some (.fatal 8#4, 0xFE01#16, 0x0041#16, []) := by decide

theorem witness_StepRunsTheDecodedInstruction : running.run = .running ∧ running.wait = .none := by decide

/-- A next state of `exec`, of `step` and of the two completions. -/
theorem witness_whole_machine_rules :
    (∃ t, exec (.trap 0x24#8) running = .next t) ∧
    (∃ t, exec (.ldi .r0 0#9) running = .next t) ∧
    (∃ t, completeGetc { running with inq := [0#8] } = .next t) ∧
    (∃ t, completeIn { running with inq := [0#8] } = .next t) ∧ (∃ t, step running = .next t) ∧
    (∀ n z p off9, Instr.trap 0x24#8 ≠ .br n z p off9) :=
  ⟨(execTrap_next 0x24#8 running).imp fun _ h => h.1, ⟨_, rfl⟩, ⟨_, rfl⟩, ⟨_, rfl⟩, ⟨_, rfl⟩, fun _ _ _ _ h => by cases h⟩

/-- The last word that fits, one below the origin, one past the image, and images of 0 and 1 bytes. -/
theorem witness_LoadPlacesTheImageWords :
    State.reset.run = .loading ∧
    ((0xFFFF#16 : Word).toNat = ((0xFF#8 : Byte) ++ (0xFE#8 : Byte)).toNat + 1 ∧ 2 * 1 + 1 < 6) ∧
    (0xFFFD#16 : Word).toNat < ((0xFF#8 : Byte) ++ (0xFE#8 : Byte)).toNat ∧
    ((0x30#8 : Byte) ++ (0x00#8 : Byte)).toNat + 3 / 2 ≤ (0x3001#16 : Word).toNat ∧
    ([] : List Byte).length < 2 ∧ [0x30#8].length < 2 := by decide

theorem witness_host_actions :
    State.reset.run = .loading ∧ running.run ≠ .loading ∧ running.run = .running ∧ running.wait = .none ∧
    State.reset.run ≠ .running ∧ ({ running with wait := .inWait } : State).wait ≠ .none := by decide

theorem witness_NothingHappensAfterTheRunEnds :
    ∀ r ∈ [RunState.halted, .fatal 13#4, .interrupted],
      ({ running with run := r } : State).run.terminal = true ∧ r ≠ .loading := by decide

theorem witness_StepKeepsTheInvariant :
    running.Inv ∧ ∃ t, step running = .next t :=
  ⟨⟨by decide, by simp [running], by simp [running, State.reset], by simp [running]⟩, _, rfl⟩

/-- Each of the four actions, enabled in a state that meets the invariant. -/
theorem witness_HostActionsKeepTheInvariant :
    State.reset.Inv ∧ running.Inv ∧
    (hostAct (.load [0x30#8, 0x00#8, 0x12#8, 0x34#8]) State.reset).isSome ∧
    (hostAct .start State.reset).isSome ∧ (hostAct .interrupt running).isSome ∧
    (hostAct (.deliver [0x41#8]) running).isSome :=
  ⟨⟨by decide, by simp [State.reset], by simp [State.reset], by simp [State.reset]⟩,
    witness_StepKeepsTheInvariant.1, by decide, by decide, by decide, by decide⟩

theorem witness_EveryReachableStateMeetsTheInvariant :
    ∃ s, Reachable s ∧ s.run = .running ∧ s.inq = [0x41#8] :=
  ⟨_, .next (.host .start) (.reset [0x41#8]) rfl, rfl, rfl⟩

end Sys2Proof.Tests
end

section
/-! Sign extension (rule R9): which bits the extended word has, and that its value is the field's. -/

namespace Sys2Proof.Machine

variable {n : Nat} (v : BitVec n)

/-- The library speaks of the field's `msb`; rule R9 speaks of its bit N-1. -/
theorem getLsbD_sext {j : Nat} (hj : j < 16) :
    (sext v).getLsbD j = if j < n then v.getLsbD j else v.getLsbD (n - 1) := by
  rw [sext, BitVec.getLsbD_signExtend, BitVec.msb_eq_getLsbD_last, decide_eq_true hj, Bool.true_and]

theorem toInt_sext (hn : n ≤ 16) : (sext v).toInt = v.toInt :=
  BitVec.toInt_signExtend_of_le hn

/-- Settles O7: the bits and the value, each by its lemma. Only the upper bound on the width is used:
a field of width 0 has no top bit, and both sides of the statement are then zero. -/
theorem signExtensionCopiesTheTopBit : Obligations.SignExtensionCopiesTheTopBit :=
  fun _ v _ hn => ⟨fun _ hj => getLsbD_sext v hj, toInt_sext v hn⟩

end Sys2Proof.Machine
end

section
/-! What an instruction can do (rules R21, R24, R27), said once for all of them, and what follows for
the flag, the registers, `pc` and the console queues. -/

namespace Sys2Proof.Machine

/-! ## Reads before the effect of an instruction

A read of memory, like a string scan, stays inside `ScanFrame`. -/

theorem ScanFrame.refl (s : State) : ScanFrame s s :=
  ⟨rfl, rfl, rfl, rfl, rfl, fun _ _ => rfl, id, List.suffix_rfl, List.prefix_rfl⟩

theorem ScanFrame.afterRead {s t : State} (h : ScanFrame s t) (a : Word) : ScanFrame s (t.afterRead a) where
  regs := (t.afterRead_frame a).1.trans h.regs
  pc := (t.pc_afterRead a).trans h.pc
  cond := (t.cond_afterRead a).trans h.cond
  run := (t.run_afterRead a).trans h.run
  wait := (t.wait_afterRead a).trans h.wait
  mem b hb := (t.read_afterRead a b hb).trans (h.mem b hb)
  wf hwf := State.afterRead_wf a (h.wf hwf)
  inq := by
    rw [t.inq_afterRead]
    split
    · exact (List.tail_suffix _).trans h.inq
    · exact h.inq
  outq := (t.outq_afterRead a).symm ▸ h.outq

theorem ScanFrame.reg {s t : State} (h : ScanFrame s t) (r : Reg) : t.reg r = s.reg r := by
  rw [State.reg, State.reg, h.regs]

/-! ## The effect of an instruction -/

/-- The kinds of effect an instruction has, each with which registers, flag and `pc` writes it means. -/
inductive ExecEffect (i : Instr) (s : State) : State → Prop
  /-- Operate instructions, loads and LEA: any reads, then a result in a register and the flag. -/
  | result {s' : State} {dr : Reg} {v : Word} (reads : ScanFrame s s')
      (flag : i.flagSource = some dr) (regs : i.writtenRegs = [dr]) : ExecEffect i s (s'.writeResult dr v)
  /-- Stores: any reads, then one cell. -/
  | store {s' : State} {a v : Word} (reads : ScanFrame s s') (flag : i.flagSource = none) :
      ExecEffect i s (s'.memWrite a v)
  /-- JMP and BR. A branch not taken writes the `pc` it finds. -/
  | jump {v : Word} (flag : i.flagSource = none) (pc : i.writesPc = true) : ExecEffect i s (s.setPc v)
  /-- JSR and JSRR. -/
  | linkedJump {v : Word} (flag : i.flagSource = none) (pc : i.writesPc = true)
      (regs : i.writtenRegs = [.r7]) : ExecEffect i s (s.link.setPc v)
  /-- RTI and RES. -/
  | fatal {op : BitVec 4} (flag : i.flagSource = none) (hop : op = 8#4 ∨ op = 13#4) :
      ExecEffect i s (raiseInvalidOpcode op s)
  /-- TRAP. -/
  | trap {t : State} (frame : TrapFrame s t) (flag : i.flagSource = none) (regs : i.writtenRegs = [.r7]) :
      ExecEffect i s t

/-- An instruction that answers a next state has one of the effects. -/
theorem exec_cases {i : Instr} {s t : State} (h : exec i s = .next t) : ExecEffect i s t := by
  cases i with
  | addReg | addImm | andReg | andImm | notReg | lea =>
    cases h
    exact .result (.refl s) rfl rfl
  | ld | ldr =>
    cases h
    exact .result ((ScanFrame.refl s).afterRead _) rfl rfl
  | ldi =>
    cases h
    exact .result (((ScanFrame.refl s).afterRead _).afterRead _) rfl rfl
  | st | str =>
    cases h
    exact .store (.refl s) rfl
  | sti =>
    cases h
    exact .store ((ScanFrame.refl s).afterRead _) rfl
  | br =>
    cases h
    split
    · exact .jump rfl rfl
    · exact .jump (v := s.pc) rfl rfl
  | jmp =>
    cases h
    exact .jump rfl rfl
  | jsr | jsrr =>
    cases h
    exact .linkedJump rfl rfl rfl
  | rti =>
    cases h
    exact .fatal rfl (.inl rfl)
  | res =>
    cases h
    exact .fatal rfl (.inr rfl)
  | trap v =>
    obtain ⟨t', ht', frame⟩ := execTrap_next v s
    cases ht'.symm.trans h
    exact .trap frame rfl rfl

namespace ExecEffect

variable {i : Instr} {s t : State}

theorem cond_of_flagSource_some {dr : Reg} (h : ExecEffect i s t) (hi : i.flagSource = some dr) :
    t.cond = condOf (t.reg dr) := by
  cases h with
  | result _ flag _ =>
    cases flag.symm.trans hi
    simp
  | store _ flag | jump flag _ | linkedJump flag _ _ | fatal flag _ | trap _ flag _ =>
    cases flag.symm.trans hi

theorem cond_of_flagSource_none (h : ExecEffect i s t) (hi : i.flagSource = none) : t.cond = s.cond := by
  cases h with
  | result _ flag _ => cases flag.symm.trans hi
  | store reads _ => exact reads.cond
  | jump | linkedJump | fatal => rfl
  | trap frame _ _ => exact frame.cond

theorem sameRegsExcept (h : ExecEffect i s t) : SameRegsExcept i.writtenRegs s t := by
  intro r hr
  cases h with
  | result reads _ regs =>
    rw [regs, List.mem_singleton] at hr
    rw [State.reg_writeResult, if_neg hr, reads.reg]
  | store reads _ => exact reads.reg r
  | jump | fatal => rfl
  | linkedJump _ _ regs =>
    rw [regs, List.mem_singleton] at hr
    rw [State.reg_setPc, State.reg_link, if_neg hr]
  | trap frame _ regs =>
    rw [regs, List.mem_singleton] at hr
    rw [State.reg, frame.regs, ← State.reg, State.reg_link, if_neg hr]

theorem pc_eq (h : ExecEffect i s t) (hi : i.writesPc = false) : t.pc = s.pc := by
  cases h with
  | result reads _ _ | store reads _ => exact reads.pc
  | jump _ pc | linkedJump _ pc _ => cases pc.symm.trans hi
  | fatal => rfl
  | trap frame _ _ => exact frame.pc

theorem mem_wf (h : ExecEffect i s t) (hwf : s.mem.wf) : t.mem.wf := by
  cases h with
  | result reads _ _ => exact reads.wf hwf
  | store reads _ => exact Memory.write_wf _ _ (reads.wf hwf)
  | jump | linkedJump | fatal => exact hwf
  | trap frame _ _ => exact frame.wf hwf

theorem inq_suffix (h : ExecEffect i s t) : t.inq <:+ s.inq := by
  cases h with
  | result reads _ _ | store reads _ => exact reads.inq
  | jump | linkedJump | fatal => exact List.suffix_rfl
  | trap frame _ _ => exact frame.inq

theorem outq_grows (h : ExecEffect i s t) : s.outq <+: t.outq := by
  cases h with
  | result reads _ _ | store reads _ => exact reads.outq
  | jump | linkedJump | fatal => exact List.prefix_rfl
  | trap frame _ _ => exact frame.outq

/-- An instruction either lets the run go on, with or without a wait, or ends it and starts no wait. -/
theorem control (h : ExecEffect i s t) :
    t.run = s.run ∨
      t.wait = s.wait ∧ (t.run = .halted ∨ t.run = .fatal 8#4 ∨ t.run = .fatal 13#4) := by
  cases h with
  | result reads _ _ | store reads _ => exact .inl reads.run
  | jump | linkedJump => exact .inl rfl
  | fatal _ hop =>
    rcases hop with rfl | rfl
    · exact .inr ⟨rfl, .inr (.inl rfl)⟩
    · exact .inr ⟨rfl, .inr (.inr rfl)⟩
  | trap frame _ _ =>
    rcases frame.control with ⟨hrun, -⟩ | ⟨hrun, hwait⟩ | ⟨hrun, -⟩
    · exact .inl hrun
    · exact .inr ⟨hwait, .inl hrun⟩
    · exact .inl hrun

end ExecEffect

/-! ## The completions of GETC and IN -/

/-- What the two completions share: one byte of `inq` goes to `x[0]` and the flag, `outq` may grow, and
the wait ends (rules R152, R155, R159). -/
theorem completion_cases {s t : State} (h : completeGetc s = .next t ∨ completeIn s = .next t) :
    ∃ b rest out, s.inq = b :: rest ∧
      t = ((({ s with inq := rest } : State).consoleOut out).writeResult .r0 (zext16 b)).setWait .none := by
  rcases h with h | h
  · obtain ⟨b, rest, hq, rfl⟩ := completeGetc_cases h
    exact ⟨b, rest, [], hq, by simp [State.consoleOut]⟩
  · obtain ⟨b, rest, hq, rfl⟩ := completeIn_cases h
    exact ⟨b, rest, [b], hq, rfl⟩

theorem completion_cond {s t : State} (h : completeGetc s = .next t ∨ completeIn s = .next t) :
    t.cond = condOf (t.reg .r0) := by
  obtain ⟨b, rest, out, -, rfl⟩ := completion_cases h
  simp

theorem completion_sameRegsExcept {s t : State} (h : completeGetc s = .next t ∨ completeIn s = .next t) :
    SameRegsExcept [.r0] s t := by
  intro r hr
  obtain ⟨b, rest, out, -, rfl⟩ := completion_cases h
  rw [List.mem_singleton] at hr
  rw [State.reg_setWait, State.reg_writeResult, if_neg hr]
  rfl

theorem completion_pc {s t : State} (h : completeGetc s = .next t ∨ completeIn s = .next t) :
    t.pc = s.pc := by
  obtain ⟨b, rest, out, -, rfl⟩ := completion_cases h
  rfl

/-! ## A step is an instruction after its fetch, or a completion -/

theorem step_exec_or_completion {s t : State} (h : step s = .next t) :
    s.run = .running ∧
      ((s.wait = .none ∧
          ∃ i, ExecEffect i ((s.afterRead s.pc).setPc (s.pc + 1#16)) t) ∨
        (completeGetc s = .next t ∨ completeIn s = .next t)) := by
  obtain ⟨hrun, ⟨hwait, h⟩ | ⟨-, h⟩ | ⟨-, h⟩⟩ := step_cases h
  · exact ⟨hrun, .inl ⟨hwait, _, exec_cases (instructionStep_eq s ▸ h)⟩⟩
  · exact ⟨hrun, .inr (.inl h)⟩
  · exact ⟨hrun, .inr (.inr h)⟩

/-! ## The obligations -/

/-- Settles O47: by the kind of effect; the completions write `x[0]` and the flag together. -/
theorem flagHasExactlyItsWriters : Obligations.FlagHasExactlyItsWriters := by
  refine ⟨fun i s t h => ?_, fun s t h => completion_cond h⟩
  cases hi : i.flagSource with
  | some dr => exact (exec_cases h).cond_of_flagSource_some hi
  | none => exact (exec_cases h).cond_of_flagSource_none hi

/-- Settles O48: by the kind of effect. -/
theorem registersAndPcHaveOnlyTheirWriters : Obligations.RegistersAndPcHaveOnlyTheirWriters :=
  ⟨fun _ _ _ h => ⟨(exec_cases h).sameRegsExcept, (exec_cases h).pc_eq⟩,
    fun _ _ h => ⟨completion_sameRegsExcept h, completion_pc h⟩⟩

/-- Settles O51: the fetch may poll, and so may the instruction; a completion takes one byte. -/
theorem stepMovesTheConsoleQueuesOneWay : Obligations.StepMovesTheConsoleQueuesOneWay := by
  intro s t h
  obtain ⟨-, ⟨-, i, hexec⟩ | h⟩ := step_exec_or_completion h
  · have hfetch := (ScanFrame.refl s).afterRead s.pc
    exact ⟨hexec.inq_suffix.trans hfetch.inq, hfetch.outq.trans hexec.outq_grows⟩
  · obtain ⟨b, rest, out, hq, rfl⟩ := completion_cases h
    exact ⟨hq ▸ List.suffix_cons b rest, List.prefix_append _ _⟩

end Sys2Proof.Machine
end

section
/-! The invariant: it holds at reset, and block steps and host actions keep it (rules R37, R40, R180). -/

namespace Sys2Proof.Machine

/-! ## What the host can do -/

/-- A host action that happens is enabled, and changes one field (rules R42, R43, R44, R47). -/
theorem hostAct_cases {a : HostAction} {s t : State} (h : hostAct a s = some t) :
    (∃ bytes, a = .load bytes ∧ s.run = .loading ∧ t = { s with mem := loadImage bytes s.mem }) ∨
    (a = .start ∧ s.run = .loading ∧ t = s.setRun .running) ∨
    (a = .interrupt ∧ s.run = .running ∧ s.wait = .none ∧ t = s.setRun .interrupted) ∨
    (∃ bytes, a = .deliver bytes ∧ (s.run = .loading ∨ s.run = .running) ∧
      t = { s with inq := s.inq ++ bytes }) := by
  cases a with
  | load bytes =>
    obtain ⟨hrun, ht⟩ := Option.ite_none_right_eq_some.mp h
    exact .inl ⟨bytes, rfl, hrun, (Option.some.inj ht).symm⟩
  | start =>
    obtain ⟨hrun, ht⟩ := Option.ite_none_right_eq_some.mp h
    exact .inr (.inl ⟨rfl, hrun, (Option.some.inj ht).symm⟩)
  | interrupt =>
    obtain ⟨⟨hrun, hwait⟩, ht⟩ := Option.ite_none_right_eq_some.mp h
    exact .inr (.inr (.inl ⟨rfl, hrun, hwait, (Option.some.inj ht).symm⟩))
  | deliver bytes =>
    obtain ⟨hrun, ht⟩ := Option.ite_none_right_eq_some.mp h
    exact .inr (.inr (.inr ⟨bytes, rfl, hrun, (Option.some.inj ht).symm⟩))

theorem transition_host_next {a : HostAction} {s t : State} (h : transition (.host a) s = .next t) :
    hostAct a s = some t := by
  unfold transition at h
  cases ha : hostAct a s with
  | some u => simpa [ha] using h
  | none => simp [ha] at h

/-! ## The invariant of a started run -/

theorem State.Inv.of_running {t : State} (hwf : t.mem.wf) (hrun : t.run = .running) : t.Inv :=
  ⟨hwf, by simp [hrun], fun _ => hrun, by simp [hrun]⟩

theorem State.Inv.of_wait_none {t : State} (hwf : t.mem.wf) (hwait : t.wait = .none)
    (hload : t.run ≠ .loading) (hop : ∀ op, t.run = .fatal op → op = 8#4 ∨ op = 13#4) : t.Inv :=
  ⟨hwf, hop, fun h => absurd hwait h, fun h => absurd h hload⟩

/-- The invariant does not speak of `inq`. -/
theorem State.Inv.with_inq {s : State} (h : s.Inv) (q : List Byte) : { s with inq := q }.Inv :=
  ⟨h.mem_wf, h.fatal_op, h.wait_running, h.loading_reset⟩

theorem ExecEffect.inv {i : Instr} {s t : State} (h : ExecEffect i s t) (hwf : s.mem.wf)
    (hrun : s.run = .running) (hwait : s.wait = .none) : t.Inv := by
  rcases h.control with hr | ⟨hw, hr⟩
  · exact .of_running (h.mem_wf hwf) (hr.trans hrun)
  · obtain ⟨hload, hop⟩ : t.run ≠ .loading ∧ ∀ op, t.run = .fatal op → op = 8#4 ∨ op = 13#4 := by
      rcases hr with hr | hr | hr <;> simp [hr]
    exact .of_wait_none (h.mem_wf hwf) (hw.trans hwait) hload hop

/-- A completion writes no memory and lets the run go on. -/
theorem completion_inv {s t : State} (h : completeGetc s = .next t ∨ completeIn s = .next t)
    (hwf : s.mem.wf) (hrun : s.run = .running) : t.Inv := by
  obtain ⟨b, rest, out, -, rfl⟩ := completion_cases h
  exact .of_running hwf hrun

/-! ## The obligations -/

/-- Settles O58: the state after the fetch still runs with a canonical memory, and each effect of an
instruction keeps the invariant from there; a completion leaves the memory alone. -/
theorem stepKeepsTheInvariant : Obligations.StepKeepsTheInvariant := by
  intro s t hs h
  obtain ⟨hrun, ⟨hwait, i, hexec⟩ | h⟩ := step_exec_or_completion h
  · have hfetch := (ScanFrame.refl s).afterRead s.pc
    exact hexec.inv (hfetch.wf hs.mem_wf) (hfetch.run.trans hrun) (hfetch.wait.trans hwait)
  · exact completion_inv h hs.mem_wf hrun

/-- Settles O59: by the four actions. -/
theorem hostActionsKeepTheInvariant : Obligations.HostActionsKeepTheInvariant := by
  intro a s t hs h
  rcases hostAct_cases h with
    ⟨bytes, -, -, rfl⟩ | ⟨-, -, rfl⟩ | ⟨-, -, hwait, rfl⟩ | ⟨bytes, -, -, rfl⟩
  case inl =>
    exact ⟨loadImage_wf bytes hs.mem_wf, hs.fatal_op, hs.wait_running, hs.loading_reset⟩
  case inr.inl => exact .of_running hs.mem_wf rfl
  case inr.inr.inl => exact .of_wait_none hs.mem_wf hwait (by simp) (by simp)
  case inr.inr.inr => exact hs.with_inq _

/-- Settles O57: the memory is empty, nothing waits, and the loading clause is of the same values. -/
theorem resetMeetsTheInvariant : Obligations.ResetMeetsTheInvariant where
  mem_wf := ⟨.nil, fun _ h => absurd h List.not_mem_nil⟩
  fatal_op _ h := nomatch h
  wait_running h := absurd rfl h
  loading_reset _ := ⟨rfl, rfl, rfl, rfl⟩

/-- Settles O60, by induction on the run: reset is O57, a block step O58, a host action O59. -/
theorem everyReachableStateMeetsTheInvariant : Obligations.EveryReachableStateMeetsTheInvariant := by
  intro s h
  induction h with
  | reset delivered => exact resetMeetsTheInvariant.with_inq delivered
  | next e _ ht ih =>
    cases e with
    | block => exact stepKeepsTheInvariant _ _ ih ht
    | host a => exact hostActionsKeepTheInvariant a _ _ ih (transition_host_next ht)

end Sys2Proof.Machine
end

section
/-! The ends of a run, the host actions and reset, each as its rule states it (rules R30, R37, R43, R44,
R47), and the flag of a value (rule R26). -/

namespace Sys2Proof.Machine

theorem RunState.terminal_of_loading_or_running {r : RunState} (h : r = .loading ∨ r = .running) :
    r.terminal = false := by
  rcases h with rfl | rfl <;> rfl

/-- Any transition finds the run before its end. -/
theorem loading_or_running_of_transition {e : Event} {s t : State} (h : transition e s = .next t) :
    s.run = .loading ∨ s.run = .running := by
  cases e with
  | block => exact .inr (step_cases h).1
  | host a =>
    rcases hostAct_cases (transition_host_next h) with
      ⟨-, -, hrun, -⟩ | ⟨-, hrun, -⟩ | ⟨-, hrun, -⟩ | ⟨-, -, hrun, -⟩
    · exact .inl hrun
    · exact .inl hrun
    · exact .inr hrun
    · exact hrun

/-- Settles O55: every transition needs a run that is loading or running, and a load one that is
loading. -/
theorem nothingHappensAfterTheRunEnds : Obligations.NothingHappensAfterTheRunEnds := by
  refine ⟨fun e s t hend h => ?_, fun bytes s hrun => if_neg hrun⟩
  have hgoing := RunState.terminal_of_loading_or_running (loading_or_running_of_transition h)
  exact Bool.false_ne_true (hgoing.symm.trans hend)

/-- Settles O53: the guard of `start` is `run = Loading`. -/
theorem startOnlyBeginsTheRun : Obligations.StartOnlyBeginsTheRun :=
  fun _ => ⟨fun hrun => if_pos hrun, fun hrun => if_neg hrun⟩

/-- Settles O54: each guard is the one of its rule. -/
theorem interruptAndDeliveryChangeOneField : Obligations.InterruptAndDeliveryChangeOneField :=
  ⟨fun _ hrun hwait => if_pos ⟨hrun, hwait⟩, fun _ h => if_neg (not_and_or.mpr h),
    fun _ _ hrun => if_pos hrun⟩

/-- Settles O56: register by register; a memory with no entry reads 0 everywhere. -/
theorem resetLeavesTheStatedValues : Obligations.ResetLeavesTheStatedValues := by
  refine ⟨fun r => ?_, rfl, rfl, fun _ => rfl, rfl, rfl, rfl⟩
  cases r <;> rfl

@[simp] theorem condOf_zero : condOf 0#16 = .z := rfl

theorem condOf_of_ne_zero {v : Word} (hv : v ≠ 0#16) :
    condOf v = if v.getLsbD 15 then .n else .p := by
  rw [condOf, if_neg hv, BitVec.msb_eq_getLsbD_last]

/-- Settles O8: by the sign of the value. -/
theorem setccFollowsTheSignOfTheValue : Obligations.SetccFollowsTheSignOfTheValue := by
  refine fun s v => ⟨fun hv => ?_, fun hv hbit => ?_, fun hv hbit => ?_, rfl⟩
  · rw [hv, State.cond_setcc, condOf_zero]
  · rw [State.cond_setcc, condOf_of_ne_zero hv, if_pos hbit]
  · rw [State.cond_setcc, condOf_of_ne_zero hv, hbit]
    rfl

end Sys2Proof.Machine
end

section
/-! Noninterference of the flag (rule R28): every operation but BR does the same in a state with another
flag. -/

namespace Sys2Proof.Machine

/-- The state with another flag. -/
def State.setCond (s : State) (c : Cond) : State := { s with cond := c }

variable {s t : State} {c : Cond}

/-! ## Reads -/

theorem State.poll_setCond : (s.setCond c).poll = s.poll.setCond c := by
  cases hq : s.inq with
  | nil =>
    rw [State.poll_nil hq, State.poll_nil (s := s.setCond c) hq]
    rfl
  | cons b rest =>
    rw [State.poll_cons hq, State.poll_cons (s := s.setCond c) hq]
    rfl

@[simp] theorem State.afterRead_setCond (a : Word) : (s.setCond c).afterRead a = (s.afterRead a).setCond c := by
  by_cases ha : a = Config.kbsrAddr
  · rw [ha, State.afterRead_kbsr, State.afterRead_kbsr, State.poll_setCond]
  · rw [State.afterRead_of_ne ha, State.afterRead_of_ne ha]

@[simp] theorem State.readValue_setCond (a : Word) : (s.setCond c).readValue a = s.readValue a := by
  rw [State.readValue, State.afterRead_setCond]
  rfl

theorem memRead_setCond (a : Word) :
    memRead a (s.setCond c) = ((memRead a s).1, (memRead a s).2.setCond c) := by
  simp [memRead]

/-- A load overwrites the flag. -/
theorem loadInto_setCond (dr : Reg) (ea : Word) : loadInto dr ea (s.setCond c) = loadInto dr ea s := by
  rw [loadInto, memRead_setCond]
  rfl

/-! ## TRAP -/

theorem strRead_setCond (polls : Bool) (a : Word) :
    strRead polls a (s.setCond c) = ((strRead polls a s).1, (strRead polls a s).2.setCond c) := by
  cases polls with
  | true => exact memRead_setCond a
  | false => rfl

theorem scanString_setCond (polls : Bool) (bytes : Word → List Byte) (n : Nat) (a : Word) (s : State) :
    scanString polls bytes n a (s.setCond c) = (scanString polls bytes n a s).map (·.setCond c) := by
  induction n generalizing a s with
  | zero => rfl
  | succ n ih =>
    rw [scanString, scanString, strRead_setCond]
    dsimp only
    split
    · rfl
    · exact ih _ ((strRead polls a s).2.consoleOut _)

theorem serviceString_eq_next_iff {polls : Bool} {bytes : Word → List Byte} :
    serviceString polls bytes s = .next t ↔
      scanString polls bytes (scanBound s) (s.reg .r0) s = some t := by
  unfold serviceString
  cases scanString polls bytes (scanBound s) (s.reg .r0) s <;> simp

theorem serviceString_setCond {polls : Bool} {bytes : Word → List Byte}
    (h : serviceString polls bytes s = .next t) :
    serviceString polls bytes (s.setCond c) = .next (t.setCond c) := by
  rw [serviceString_eq_next_iff] at h ⊢
  exact (scanString_setCond polls bytes _ _ s).trans (congrArg _ h)

theorem execTrap_setCond {v : BitVec 8} (h : execTrap v s = .next t) :
    execTrap v (s.setCond c) = .next (t.setCond c) := by
  unfold execTrap runService at h ⊢
  cases hv : serviceOf v <;> rw [hv] at h
  case puts | putsp => exact serviceString_setCond (s := s.link) h
  all_goals
    cases h
    rfl

/-! ## Every instruction but BR -/

/-- The next state under another flag `c`: the same if the instruction sets the flag, and the one with
flag `c` otherwise. -/
theorem exec_setCond {i : Instr} (hbr : ∀ n z p off9, i ≠ .br n z p off9) (h : exec i s = .next t) :
    exec i (s.setCond c) = .next (match i.flagSource with | some _ => t | none => t.setCond c) := by
  cases i with
  | br n z p off9 => exact absurd rfl (hbr n z p off9)
  | addReg | addImm | andReg | andImm | notReg | lea | jmp | jsr | jsrr | st | str | rti | res =>
    cases h
    rfl
  | ld | ldr =>
    cases h
    exact congrArg Host.Outcome.next (loadInto_setCond _ _)
  | ldi dr off9 =>
    cases h
    simp only [exec, execLdi, memRead_setCond, loadInto_setCond, Instr.flagSource]
    rfl
  | sti sr off9 =>
    cases h
    simp only [exec, execSti, memRead_setCond, Instr.flagSource]
    rfl
  | trap v => exact execTrap_setCond h

/-- Settles O50: the next state of `exec_setCond`. -/
theorem onlyBranchReadsTheFlag : Obligations.OnlyBranchReadsTheFlag := by
  intro i c s t hbr h
  refine ⟨_, exec_setCond hbr h, ?_⟩
  cases i.flagSource with
  | some _ => exact ⟨rfl, rfl⟩
  | none => exact ⟨rfl, rfl⟩

end Sys2Proof.Machine
end

section
/-! Memory accesses: what a read answers and does, what a write does, and that a canonical memory is
determined by its cells (rules R50, R52 to R57, R74). -/

namespace Sys2Proof.Machine

variable {s t u : State} {xs ys : List Word}

/-! ## Cells left alone -/

/-- The cells two changes may touch are those of the one and those of the other. -/
theorem SameMemExcept.trans (hst : SameMemExcept xs s t) (htu : SameMemExcept ys t u) :
    SameMemExcept (ys ++ xs) s u := by
  intro a ha
  obtain ⟨hys, hxs⟩ := not_or.mp (mt List.mem_append.mpr ha)
  exact (htu a hys).trans (hst a hxs)

theorem sameMemExcept_of_mem_eq (h : t.mem = s.mem) : SameMemExcept xs s t := by
  intro a _
  rw [h]

theorem sameMemExcept_memWrite (s : State) (a v : Word) : SameMemExcept [a] s (s.memWrite a v) := by
  intro b hb
  rw [List.mem_singleton] at hb
  rw [State.mem_memWrite, Memory.read_write, if_neg hb]

/-! ## `MemRead` -/

theorem memRead_of_ne {a : Word} (ha : a ≠ Config.kbsrAddr) : memRead a s = (s.mem.read a, s) := by
  rw [memRead, State.readValue_of_ne ha, State.afterRead_of_ne ha]

/-- Every read has the effect that rules R52 and R53 give it: off KBSR none, at KBSR a poll. -/
theorem readEffect_memRead (a : Word) (s : State) : ReadEffect a (memRead a s).1 s (memRead a s).2 := by
  refine ⟨fun ha => ?_, fun ha hq => ?_, fun b rest ha hq => ?_⟩
  · rw [memRead_of_ne ha]
    exact ⟨rfl, fun _ => rfl, rfl⟩
  · have hv : s.readValue Config.kbsrAddr = 0#16 := by rw [State.readValue_kbsr, if_pos hq]
    subst ha
    refine ⟨hv, hv, ?_, ?_⟩
    · rw [memRead, State.afterRead_kbsr, State.poll_nil hq]
      exact sameMemExcept_memWrite s _ _
    · exact (s.inq_afterRead _).trans (by simp [hq])
  · have hv : s.readValue Config.kbsrAddr = Config.kbsrReady := by simp [State.readValue_kbsr, hq]
    subst ha
    refine ⟨hv, hv, ?_, s.read_afterRead _, ?_⟩
    · simp [memRead, State.poll_cons hq]
    · exact (s.inq_afterRead _).trans (by simp [hq])

/-- Settles O20: the effect of a read and the frame of a read. -/
theorem readOfKbsrPollsTheConsole : Obligations.ReadOfKbsrPollsTheConsole :=
  fun a s => ⟨readEffect_memRead a s, fun r _ => s.reg_afterRead a r, s.pc_afterRead a, s.cond_afterRead a,
    ⟨s.run_afterRead a, s.wait_afterRead a⟩, s.outq_afterRead a⟩

/-- Settles O21: KBDR is not KBSR. -/
theorem readElsewhereHasNoSideEffect : Obligations.ReadElsewhereHasNoSideEffect :=
  ⟨fun _ _ ha => memRead_of_ne ha, fun _ => memRead_of_ne kbsrAddr_ne_kbdrAddr.symm⟩

/-- Settles O24: a poll overwrites KBSR, and the second poll overwrites the byte in KBDR. -/
theorem kbsrReadsOverwriteAndLoseCharacters : Obligations.KbsrReadsOverwriteAndLoseCharacters := by
  refine ⟨fun v s => State.readValue_kbsr _, fun s b1 b2 rest hq => ⟨_, rfl, ?_⟩⟩
  obtain ⟨-, -, hinput⟩ := readEffect_memRead Config.kbsrAddr s
  obtain ⟨-, -, -, -, hq'⟩ := hinput b1 (b2 :: rest) rfl hq
  obtain ⟨-, -, hinput'⟩ := readEffect_memRead Config.kbsrAddr (memRead Config.kbsrAddr s).2
  obtain ⟨-, -, hkbdr, -, hinq⟩ := hinput' b2 rest rfl hq'
  exact ⟨hkbdr, hinq⟩

/-! ## `MemWrite` -/

/-- Settles O22: a read after a write, and nothing but the memory is written. -/
theorem writeStoresOneCellAndNothingElse : Obligations.WriteStoresOneCellAndNothingElse :=
  fun a v s => ⟨fun b => Memory.read_write s.mem a b v, fun _ _ => rfl, rfl, rfl, ⟨rfl, rfl⟩, ⟨rfl, rfl⟩⟩

/-! ## Canonical memories -/

/-- The entries of a canonical memory are the addresses that exist, each with its cell's value where that
is not 0. -/
theorem Memory.mem_iff_read {m : Memory} (h : m.wf) (c : Nat × Word) :
    c ∈ m ↔ c.1 < Config.memSize ∧ c.2 ≠ 0#16 ∧ m.read (BitVec.ofNat 16 c.1) = c.2 := by
  have hread (hlt : c.1 < Config.memSize) : m.read (BitVec.ofNat 16 c.1) = m.readAt c.1 := by
    rw [Memory.read, BitVec.toNat_ofNat, Nat.mod_eq_of_lt (show c.1 < 2 ^ 16 from hlt)]
  constructor
  · intro hc
    obtain ⟨hlt, hv⟩ := h.2 c hc
    exact ⟨hlt, hv, (hread hlt).trans ((Memory.mem_iff_readAt h c.1 c.2 hv).mp hc)⟩
  · rintro ⟨hlt, hv, hc⟩
    exact (Memory.mem_iff_readAt h c.1 c.2 hv).mpr ((hread hlt).symm.trans hc)

/-- Settles O23: the two lists rise in their addresses and have the same entries. -/
theorem canonicalMemoryIsDeterminedByItsCells : Obligations.CanonicalMemoryIsDeterminedByItsCells := by
  intro m m' hm hm' hread
  refine List.Pairwise.eq_of_mem_iff hm.1 hm'.1 fun c => ?_
  rw [Memory.mem_iff_read hm, Memory.mem_iff_read hm', hread]

/-! ## A store to the next instruction -/

/-- A step off KBSR runs the word in the cell at `pc` (rules R80, R81). -/
theorem step_of_pc_ne_kbsr (hrun : s.run = .running) (hwait : s.wait = .none)
    (hpc : s.pc ≠ Config.kbsrAddr) :
    step s = exec (decode (s.mem.read s.pc)) (s.setPc (s.pc + 1#16)) := by
  have hstep : step s = instructionStep s := by
    simp only [step, blockStep, hrun, hwait]
  rw [hstep, instructionStep_eq, State.readValue_of_ne hpc, State.afterRead_of_ne hpc]

/-- Settles O32: the next step fetches the cell that ST has just written. -/
theorem storedWordIsTheNextInstruction : Obligations.StoredWordIsTheNextInstruction := by
  intro sr off9 s t h htarget hpc hrun hwait
  cases h
  have hstep := step_of_pc_ne_kbsr (s := s.memWrite s.pc (s.reg sr)) hrun hwait hpc
  rw [State.mem_memWrite, State.pc_memWrite, Memory.read_write, if_pos rfl] at hstep
  rw [State.pcRelative, htarget, hstep]

end Sys2Proof.Machine
end

section
/-! Which instructions write which cells (rules R54, R56, R67). -/

namespace Sys2Proof.Machine

/-- The services whose strings are read from memory are those of the two vectors of `mayPoll`. -/
theorem mayPoll_trap_iff (v : BitVec 8) :
    (Instr.trap v).mayPoll = true ↔ serviceOf v = .puts ∨ serviceOf v = .putsp := by
  unfold serviceOf Instr.mayPoll
  split_ifs <;> simp_all

/-- A TRAP to a service other than PUTS and PUTSP writes no memory. -/
theorem execTrap_mem_of_not_mayPoll {v : BitVec 8} {s t : State} (hv : (Instr.trap v).mayPoll = false)
    (h : execTrap v s = .next t) : t.mem = s.mem := by
  unfold execTrap runService at h
  cases hs : serviceOf v <;> rw [hs] at h
  case puts => cases hv.symm.trans ((mayPoll_trap_iff v).mpr (.inl hs))
  case putsp => cases hv.symm.trans ((mayPoll_trap_iff v).mpr (.inr hs))
  all_goals
    cases h
    rfl

/-- Settles O49: by the instruction. The reads of the loads, of STI and of the string services may poll;
ST, STI and STR store one cell; no other instruction reads or writes memory. -/
theorem memoryHasOnlyItsWriters : Obligations.MemoryHasOnlyItsWriters := by
  intro i s t h
  cases i with
  | addReg | addImm | andReg | andImm | notReg | lea | jmp | jsr | jsrr | rti | res =>
    cases h
    exact sameMemExcept_of_mem_eq rfl
  | br =>
    cases h
    refine sameMemExcept_of_mem_eq ?_
    split <;> rfl
  | ld | ldr =>
    cases h
    exact ((ScanFrame.refl s).afterRead _).mem
  | ldi =>
    cases h
    exact (((ScanFrame.refl s).afterRead _).afterRead _).mem
  | st | str =>
    cases h
    exact sameMemExcept_memWrite s _ _
  | sti =>
    cases h
    exact SameMemExcept.trans (s.read_afterRead _) (sameMemExcept_memWrite _ _ _)
  | trap v =>
    cases hv : (Instr.trap v).mayPoll with
    | true =>
      obtain ⟨t', ht', frame⟩ := execTrap_next v s
      cases ht'.symm.trans h
      exact frame.mem
    | false => exact sameMemExcept_of_mem_eq (execTrap_mem_of_not_mayPoll hv h)

end Sys2Proof.Machine
end

section
/-! The image loader (rules R62 to R64). -/

namespace Sys2Proof.Machine

theorem length_loadedWords (origin : Word) (ws : List Word) :
    (loadedWords origin ws).length = min (Config.memSize - origin.toNat) ws.length :=
  List.length_take

/-- Every cell after a load: word `k` of the image at the address `k` after the origin, and the old cell
where the image has no word. -/
theorem read_loadImage (hi lo : Byte) (data : List Byte) (m : Memory) (a : Word) :
    (loadImage (hi :: lo :: data) m).read a =
      if h : (hi ++ lo).toNat ≤ a.toNat ∧ 2 * (a.toNat - (hi ++ lo).toNat) + 1 < data.length then
        data[2 * (a.toNat - (hi ++ lo).toNat)] ++ data[2 * (a.toNat - (hi ++ lo).toNat) + 1]
      else m.read a := by
  have hload : loadImage (hi :: lo :: data) m =
      storeWords m (hi ++ lo) (loadedWords (hi ++ lo) (imageWords data)) := rfl
  have hlen := length_loadedWords (hi ++ lo) (imageWords data)
  rw [imageWords_length, Config.memSize] at hlen
  have horigin := (hi ++ lo).isLt
  have ha := a.isLt
  rw [hload, read_storeWords _ _ _ _ (by rw [hlen, Config.memSize]; omega)]
  by_cases h : (hi ++ lo).toNat ≤ a.toNat ∧ 2 * (a.toNat - (hi ++ lo).toNat) + 1 < data.length
  · rw [dif_pos h, dif_pos ⟨h.1, by rw [hlen]; omega⟩]
    simp only [loadedWords, List.getElem_take]
    exact imageWords_getElem data _ h.2
  · rw [dif_neg h, dif_neg (by rw [hlen]; omega)]

/-- Settles O52: each cell is one of `read_loadImage`. -/
theorem loadPlacesTheImageWords : Obligations.LoadPlacesTheImageWords := by
  refine ⟨fun hi lo data s hrun => ⟨_, if_pos hrun, fun a k ha hk => ?_, fun a ha => ?_,
    fun _ _ => rfl, rfl, rfl, ⟨rfl, rfl⟩, ⟨rfl, rfl⟩⟩, fun bytes s hrun hlen => ?_⟩
  · obtain rfl : k = a.toNat - (hi ++ lo).toNat := by omega
    exact (read_loadImage hi lo data s.mem a).trans (dif_pos ⟨by omega, hk⟩)
  · exact (read_loadImage hi lo data s.mem a).trans (dif_neg (by omega))
  · match bytes, hlen with
    | [], _ | [_], _ => exact if_pos hrun

end Sys2Proof.Machine
end

section
/-! The encoding (rules R82 to R88): which words encode an instruction, said once, and what follows for
the decoder, the encoder, the opcode table and the ignored bits. -/

namespace Sys2Proof

/-! ## The words of an instruction -/

/-- A word encodes an instruction when it has the opcode, the mode bit and the operand fields of its
format (rules R83 to R85), whatever its ignored bits are (rule R88). -/
def Encodes (w : Word) : Instr → Prop
  | .addReg dr sr1 sr2 =>
    opcodeField w = 1#4 ∧ w.getLsbD 5 = false ∧ drField w = dr ∧ baseField w = sr1 ∧ sr2Field w = sr2
  | .addImm dr sr1 imm5 =>
    opcodeField w = 1#4 ∧ w.getLsbD 5 = true ∧ drField w = dr ∧ baseField w = sr1 ∧ imm5Field w = imm5
  | .andReg dr sr1 sr2 =>
    opcodeField w = 5#4 ∧ w.getLsbD 5 = false ∧ drField w = dr ∧ baseField w = sr1 ∧ sr2Field w = sr2
  | .andImm dr sr1 imm5 =>
    opcodeField w = 5#4 ∧ w.getLsbD 5 = true ∧ drField w = dr ∧ baseField w = sr1 ∧ imm5Field w = imm5
  | .notReg dr sr => opcodeField w = 9#4 ∧ drField w = dr ∧ baseField w = sr
  | .br n z p off9 =>
    opcodeField w = 0#4 ∧ w.getLsbD 11 = n ∧ w.getLsbD 10 = z ∧ w.getLsbD 9 = p ∧ offset9Field w = off9
  | .jmp baseR => opcodeField w = 12#4 ∧ baseField w = baseR
  | .jsr off11 => opcodeField w = 4#4 ∧ w.getLsbD 11 = true ∧ offset11Field w = off11
  | .jsrr baseR => opcodeField w = 4#4 ∧ w.getLsbD 11 = false ∧ baseField w = baseR
  | .ld dr off9 => opcodeField w = 2#4 ∧ drField w = dr ∧ offset9Field w = off9
  | .st sr off9 => opcodeField w = 3#4 ∧ drField w = sr ∧ offset9Field w = off9
  | .ldr dr baseR off6 =>
    opcodeField w = 6#4 ∧ drField w = dr ∧ baseField w = baseR ∧ offset6Field w = off6
  | .str sr baseR off6 =>
    opcodeField w = 7#4 ∧ drField w = sr ∧ baseField w = baseR ∧ offset6Field w = off6
  | .rti => opcodeField w = 8#4
  | .ldi dr off9 => opcodeField w = 10#4 ∧ drField w = dr ∧ offset9Field w = off9
  | .sti sr off9 => opcodeField w = 11#4 ∧ drField w = sr ∧ offset9Field w = off9
  | .res => opcodeField w = 13#4
  | .lea dr off9 => opcodeField w = 14#4 ∧ drField w = dr ∧ offset9Field w = off9
  | .trap vect8 => opcodeField w = 15#4 ∧ trapvectField w = vect8

/-- The opcode in terms of the four bits that the decoder looks at. -/
theorem opcodeField_eq_iff (w : Word) (op : BitVec 4) :
    opcodeField w = op ↔ w.getLsbD 15 = op.getLsbD 3 ∧ w.getLsbD 14 = op.getLsbD 2 ∧
      w.getLsbD 13 = op.getLsbD 1 ∧ w.getLsbD 12 = op.getLsbD 0 := by
  have hbit (j : Nat) (hj : j < 4) : (opcodeField w).getLsbD j = w.getLsbD (12 + j) := by
    simp [opcodeField, hj]
  constructor
  · rintro rfl
    exact ⟨(hbit 3 (by omega)).symm, (hbit 2 (by omega)).symm, (hbit 1 (by omega)).symm,
      (hbit 0 (by omega)).symm⟩
  · rintro ⟨h3, h2, h1, h0⟩
    refine BitVec.eq_of_getLsbD_eq fun j hj => (hbit j hj).trans ?_
    match j, hj with
    | 0, _ => exact h0
    | 1, _ => exact h1
    | 2, _ => exact h2
    | 3, _ => exact h3

/-- A mode bit or a condition bit as a field of one bit. -/
theorem getLsbD_eq_iff_extract (w : Word) (k : Nat) (b : Bool) :
    w.getLsbD k = b ↔ w.extractLsb' k 1 = BitVec.ofBool b := by
  simp [BitVec.eq_of_getLsbD_eq_iff]

/-- A word encodes the instruction it decodes to. -/
theorem encodes_decode (w : Word) : Encodes w (decode w) := by
  unfold decode
  split
  case h_2 | h_5 | h_6 => split <;> simp_all [Encodes, opcodeField_eq_iff]
  all_goals simp_all [Encodes, opcodeField_eq_iff]

/-- A word decodes to an instruction exactly when it encodes it. -/
theorem decode_eq_iff {w : Word} {i : Instr} : decode w = i ↔ Encodes w i := by
  constructor
  · rintro rfl
    exact encodes_decode w
  · cases i <;> simp +contextual [Encodes, opcodeField_eq_iff, decode]

/-- The encoder puts every field of the format where the decoder reads it. -/
theorem encodes_encode (i : Instr) : Encodes (encode i) i := by
  cases i <;>
    simp only [Encodes, encode, opcodeField, drField, baseField, sr2Field, imm5Field, offset6Field,
      offset9Field, offset11Field, trapvectField, getLsbD_eq_iff_extract, extract_or] <;>
    simp (disch := omega) [extract_placeField, extract_placeField_apart, condBit]

/-- Settles O1: the encoder's word has the fields of the instruction. -/
theorem encodedInstructionDecodesBack : Obligations.EncodedInstructionDecodesBack :=
  fun i => decode_eq_iff.mpr (encodes_encode i)

/-- Settles O4: each clause states, field by field, that the word encodes the instruction on its right. -/
theorem decodeReadsTheFieldsOfEachFormat : Obligations.DecodeReadsTheFieldsOfEachFormat := by
  intro w
  simp only [decode_eq_iff, Encodes]
  simp +contextual

/-- Settles O5: the decoder evaluates on each of the words. -/
theorem writtenOutWordsDecode : Obligations.WrittenOutWordsDecode := by
  unfold Obligations.WrittenOutWordsDecode
  decide

/-! ## The ignored bits -/

/-- Words that agree under a mask agree in every field that lies within it. -/
theorem extract_eq_of_agree {w w' m : Word} {lo n : Nat} (h : w &&& m = w' &&& m)
    (hm : m.extractLsb' lo n = BitVec.allOnes n) : w'.extractLsb' lo n = w.extractLsb' lo n := by
  have hfield := congrArg (BitVec.extractLsb' lo n) h
  simpa [BitVec.extractLsb'_and, hm] using hfield.symm

/-- Every field of a format lies within its used bits. -/
theorem Encodes.of_agree {w w' : Word} {i : Instr} (hi : Encodes w i)
    (h : w &&& i.usedBits = w' &&& i.usedBits) : Encodes w' i := by
  cases i <;> simp only [Instr.usedBits] at h <;>
    simpa (disch := decide) only [Encodes, opcodeField, drField, baseField, sr2Field, imm5Field,
      offset6Field, offset9Field, offset11Field, trapvectField, getLsbD_eq_iff_extract,
      extract_eq_of_agree h] using hi

/-- Settles O3: the second word has the fields of the first one's instruction. -/
theorem ignoredBitsDoNotChangeTheInstruction : Obligations.IgnoredBitsDoNotChangeTheInstruction :=
  fun w _ h => decode_eq_iff.mpr ((encodes_decode w).of_agree h)

/-! ## The opcode table -/

/-- Masking one field out of a word. -/
theorem and_placeField_allOnes (w : Word) (lo n : Nat) :
    w &&& placeField lo (BitVec.allOnes n) = placeField lo (w.extractLsb' lo n) := by
  refine BitVec.eq_of_getLsbD_eq fun j hj => ?_
  rw [BitVec.getLsbD_and, getLsbD_placeField, getLsbD_placeField, BitVec.getLsbD_extractLsb',
    BitVec.getLsbD_allOnes]
  by_cases hlo : lo ≤ j
  · simp [hj, hlo, Bool.and_comm]
  · simp [hlo]

theorem and_opcodeMask {w : Word} {op : BitVec 4} (hop : opcodeField w = op) :
    w &&& 0xF000#16 = placeField 12 op :=
  hop ▸ and_placeField_allOnes w 12 4

/-- The masks of the formats with a mode bit. -/
theorem and_opcodeMask_or_bit {w : Word} {op : BitVec 4} (k : Nat) {b : Bool} (hop : opcodeField w = op)
    (hmode : w.getLsbD k = b) :
    w &&& (0xF000#16 ||| placeField k 1#1) = placeField 12 op ||| placeField k (BitVec.ofBool b) := by
  rw [BitVec.and_or_distrib_left, and_opcodeMask hop, ← (getLsbD_eq_iff_extract w k b).mp hmode]
  exact congrArg _ (and_placeField_allOnes w k 1)

/-- A word has the fixed bits of the row of an instruction it encodes: the opcode and the mode bit. -/
theorem Encodes.covers {w : Word} {i : Instr} (h : Encodes w i) : i.tableRow.covers w = true := by
  rw [TableRow.covers, beq_iff_eq]
  cases i with
  | addReg | addImm | andReg | andImm =>
    obtain ⟨hop, hmode, -⟩ := h
    exact (and_opcodeMask_or_bit 5 hop hmode).trans rfl
  | jsr | jsrr =>
    obtain ⟨hop, hmode, -⟩ := h
    exact (and_opcodeMask_or_bit 11 hop hmode).trans rfl
  | rti | res => exact (and_opcodeMask h).trans rfl
  | notReg | br | jmp | ld | st | ldr | str | ldi | sti | lea | trap =>
    obtain ⟨hop, -⟩ := h
    exact (and_opcodeMask hop).trans rfl

/-- Two rows whose values agree on the bits that both fix are the same row. -/
theorem opcodeTable_disjoint : ∀ row ∈ opcodeTable, ∀ row' ∈ opcodeTable,
    row.value &&& row'.mask = row'.value &&& row.mask → row = row' := by
  decide

/-- No word has the fixed bits of two rows: where both fix a bit, both give it the word's value. -/
theorem eq_of_covers {row row' : TableRow} (hrow : row ∈ opcodeTable) (hrow' : row' ∈ opcodeTable)
    {w : Word} (h : row.covers w = true) (h' : row'.covers w = true) : row = row' := by
  rw [TableRow.covers, beq_iff_eq] at h h'
  refine opcodeTable_disjoint row hrow row' hrow' ?_
  rw [← h, ← h', BitVec.and_assoc, BitVec.and_assoc, BitVec.and_comm row.mask]

/-- The facts of `Laws.TableBits`, of any instruction. -/
theorem tableBits : ∀ i : Instr, Laws.TableBits.Statement i
  | .addReg .. => Laws.TableBits.addReg ..
  | .addImm .. => Laws.TableBits.addImm ..
  | .andReg .. => Laws.TableBits.andReg ..
  | .andImm .. => Laws.TableBits.andImm ..
  | .notReg .. => Laws.TableBits.notReg ..
  | .br .. => Laws.TableBits.br ..
  | .jmp .. => Laws.TableBits.jmp ..
  | .jsr .. => Laws.TableBits.jsr ..
  | .jsrr .. => Laws.TableBits.jsrr ..
  | .ld .. => Laws.TableBits.ld ..
  | .st .. => Laws.TableBits.st ..
  | .ldr .. => Laws.TableBits.ldr ..
  | .str .. => Laws.TableBits.str ..
  | .rti => Laws.TableBits.rti
  | .ldi .. => Laws.TableBits.ldi ..
  | .sti .. => Laws.TableBits.sti ..
  | .res => Laws.TableBits.res
  | .lea .. => Laws.TableBits.lea ..
  | .trap .. => Laws.TableBits.trap ..

theorem tableRow_mem (i : Instr) : i.tableRow ∈ opcodeTable := (tableBits i).1

/-- Settles O2: the row of the word's instruction covers it, no other row does, and no row stands twice in
the table. -/
theorem everyWordMatchesExactlyOneTableRow : Obligations.EveryWordMatchesExactlyOneTableRow := by
  intro w
  have hmem := tableRow_mem (decode w)
  have hcovers : ∀ row ∈ opcodeTable, row.covers w = (row == (decode w).tableRow) := by
    intro row hrow
    rw [Bool.eq_iff_iff, beq_iff_eq]
    exact ⟨fun h => eq_of_covers hrow hmem h (encodes_decode w).covers,
      fun h => h ▸ (encodes_decode w).covers⟩
  have hnodup : opcodeTable.Nodup := by decide
  rw [List.filter_congr hcovers, List.filter_beq, List.count_eq_one_of_mem hnodup hmem]
  rfl

end Sys2Proof
end

section
/-! The instruction cycle (rules R30, R33, R80, R81, R89): which words end the run, what a step runs, and
when there is one. -/

namespace Sys2Proof.Machine

variable {s t : State}

/-! ## The illegal words -/

theorem wellFormed_eq_false_iff (i : Instr) : i.wellFormed = false ↔ i = .rti ∨ i = .res := by
  cases i <;> simp [Instr.wellFormed]

theorem wellFormed_decode (w : Word) :
    (decode w).wellFormed = false ↔ opcodeField w = 8#4 ∨ opcodeField w = 13#4 := by
  rw [wellFormed_eq_false_iff, decode_eq_iff, decode_eq_iff, Encodes, Encodes]

/-- An instruction with a handler leaves `run` alone, but for HALT. -/
theorem exec_run_of_wellFormed {i : Instr} (hi : i.wellFormed = true) (h : exec i s = .next t) :
    t.run = s.run ∨ t.run = .halted := by
  cases i with
  | addReg | addImm | andReg | andImm | notReg | lea | jmp | jsr | jsrr | st | str =>
    cases h
    exact .inl rfl
  | br =>
    cases h
    refine .inl ?_
    split <;> rfl
  | ld | ldr | sti =>
    cases h
    exact .inl (s.run_afterRead _)
  | ldi =>
    cases h
    exact .inl (((ScanFrame.refl s).afterRead _).afterRead _).run
  | rti | res => cases hi
  | trap v =>
    obtain ⟨t', ht', frame⟩ := execTrap_next v s
    cases ht'.symm.trans h
    rcases frame.control with ⟨hrun, -⟩ | ⟨hrun, -⟩ | ⟨hrun, -⟩
    · exact .inl hrun
    · exact .inr hrun
    · exact .inl hrun

/-- Settles O6: the illegal words are those that decode to RTI or RES, which take the exception, and no
other instruction sets `run` to anything but Halted. -/
theorem onlyOpcodes8And13AreIllegal : Obligations.OnlyOpcodes8And13AreIllegal := by
  intro w s
  refine ⟨fun hop => ⟨(wellFormed_decode w).mpr hop, ?_⟩, fun hop => ?_⟩
  · rcases hop with hop | hop
    · have hi : decode w = .rti := decode_eq_iff.mpr hop
      rw [hi, hop]
      exact ⟨_, rfl, rfl⟩
    · have hi : decode w = .res := decode_eq_iff.mpr hop
      rw [hi, hop]
      exact ⟨_, rfl, rfl⟩
  · have hwf : (decode w).wellFormed = true := by
      rwa [← wellFormed_decode, Bool.not_eq_false] at hop
    refine ⟨hwf, fun t op h hfatal => ?_⟩
    rcases exec_run_of_wellFormed hwf h with hrun | hrun
    · exact hrun.symm.trans hfatal
    · cases hrun.symm.trans hfatal

/-! ## The step -/

/-- Every instruction answers a next state, since the string services poll and so end. -/
theorem exec_next (i : Instr) (s : State) : ∃ t, exec i s = .next t := by
  cases i with
  | trap v =>
    obtain ⟨t, ht, -⟩ := execTrap_next v s
    exact ⟨t, ht⟩
  | _ => exact ⟨_, rfl⟩

theorem step_eq_instructionStep (hrun : s.run = .running) (hwait : s.wait = .none) :
    step s = instructionStep s := by
  simp only [step, blockStep, hrun, hwait]

/-- Settles O45: a fetch is a read at `pc` and the increment. -/
theorem stepRunsTheDecodedInstruction : Obligations.StepRunsTheDecodedInstruction :=
  fun _ hrun hwait => step_eq_instructionStep hrun hwait

theorem completeGetc_next (hq : s.inq ≠ []) : ∃ t, completeGetc s = .next t := by
  obtain ⟨b, rest, hq⟩ := List.exists_cons_of_ne_nil hq
  rw [completeGetc, State.consoleIn_cons hq]
  exact ⟨_, rfl⟩

theorem completeIn_next (hq : s.inq ≠ []) : ∃ t, completeIn s = .next t := by
  obtain ⟨b, rest, hq⟩ := List.exists_cons_of_ne_nil hq
  rw [completeIn, State.consoleIn_cons hq]
  exact ⟨_, rfl⟩

/-- Settles O46: an instruction step always answers a next state, and a completion does so exactly when it
finds input. -/
theorem blockStepsExactlyWhenEnabled : Obligations.BlockStepsExactlyWhenEnabled := by
  intro s
  constructor
  · rintro ⟨t, h⟩
    obtain ⟨hrun, ⟨hwait, -⟩ | h⟩ := step_exec_or_completion h
    · exact ⟨hrun, .inl hwait⟩
    · obtain ⟨b, rest, -, hq, -⟩ := completion_cases h
      exact ⟨hrun, .inr (by simp [hq])⟩
  · rintro ⟨hrun, henabled⟩
    cases hwait : s.wait with
    | none =>
      rw [step_eq_instructionStep hrun hwait, instructionStep_eq]
      exact exec_next _ _
    | getcWait =>
      have hstep : step s = completeGetc s := by simp only [step, blockStep, hrun, hwait]
      exact hstep ▸ completeGetc_next (henabled.resolve_left (by simp [hwait]))
    | inWait =>
      have hstep : step s = completeIn s := by simp only [step, blockStep, hrun, hwait]
      exact hstep ▸ completeIn_next (henabled.resolve_left (by simp [hwait]))

end Sys2Proof.Machine
end

section
/-! Operate instructions (rules R110 to R117): what ADD, AND and NOT write, and what the flag then says of
the register written. -/

namespace Sys2Proof.Machine

/-! ## The result and its frame -/

/-- A result written to a register changes that register and the flag, and nothing else. -/
theorem registerResult_writeResult (dr : Reg) (v : Word) (s : State) :
    RegisterResult dr v s (s.writeResult dr v) := by
  have hframe : SameRegsExcept [dr] s (s.writeResult dr v) := fun r hr => by
    rw [State.reg_writeResult, if_neg (List.mem_singleton.not.mp hr)]
  exact ⟨by rw [State.reg_writeResult, if_pos rfl], rfl, hframe, rfl, fun _ => rfl, ⟨rfl, rfl⟩, ⟨rfl, rfl⟩⟩

/-- The model complements; rule R114 writes an XOR with ones. -/
theorem not_eq_xor_ones (v : Word) : ~~~ v = v ^^^ 0xFFFF#16 :=
  BitVec.xor_allOnes.symm

/-- Settles O9: both forms end in `writeResult`. -/
theorem addWritesTheSumAndTheFlag : Obligations.AddWritesTheSumAndTheFlag :=
  fun dr _ _ _ s => ⟨⟨_, rfl, registerResult_writeResult dr _ s⟩, ⟨_, rfl, registerResult_writeResult dr _ s⟩⟩

/-- Settles O10: both forms end in `writeResult`. -/
theorem andWritesTheConjunctionAndTheFlag : Obligations.AndWritesTheConjunctionAndTheFlag :=
  fun dr _ _ _ s => ⟨⟨_, rfl, registerResult_writeResult dr _ s⟩, ⟨_, rfl, registerResult_writeResult dr _ s⟩⟩

/-- Settles O11: NOT ends in `writeResult`, and the complement is the XOR with ones. -/
theorem notWritesTheComplementAndTheFlag : Obligations.NotWritesTheComplementAndTheFlag :=
  fun dr sr s => ⟨_, rfl, not_eq_xor_ones (s.reg sr) ▸ registerResult_writeResult dr _ s⟩

/-- Settles O12: the two forms differ in their second operand only, and here it is the same word. -/
theorem immediateAndRegisterFormsAgree : Obligations.ImmediateAndRegisterFormsAgree := by
  intro dr sr1 sr2 imm5 s h
  constructor
  · change execAddImm dr sr1 imm5 s = execAddReg dr sr1 sr2 s
    rw [execAddImm, execAddReg, h]
  · change execAndImm dr sr1 imm5 s = execAndReg dr sr1 sr2 s
    rw [execAndImm, execAndReg, h]

/-! ## The flag of a word -/

/-- Which words have which flag (rules R26, R117). -/
theorem condOf_eq_iff (v : Word) :
    (condOf v = .z ↔ v = 0#16) ∧
    (condOf v = .n ↔ v.getLsbD 15 = true) ∧
    (condOf v = .p ↔ v ≠ 0#16 ∧ v.getLsbD 15 = false) := by
  by_cases hv : v = 0#16
  · simp [hv]
  · rw [condOf_of_ne_zero hv]
    cases v.getLsbD 15 <;> simp [hv]

/-- Settles O13: the flag is that of the register written, and says its sign. -/
theorem flagFollowsTheRegisterWritten : Obligations.FlagFollowsTheRegisterWritten := by
  refine ⟨fun i dr s t hi h => ?_, fun s t h => ?_⟩
  · rw [(exec_cases h).cond_of_flagSource_some hi]
    exact condOf_eq_iff _
  · rw [completion_cond h]
    exact condOf_eq_iff _

/-! ## Subtraction -/

/-- Two's complement: the complement plus one is the negation. -/
theorem add_xor_ones_add_one (x y : Word) : x + ((y ^^^ 0xFFFF#16) + sext 1#5) = x - y := by
  rw [← not_eq_xor_ones, show sext 1#5 = 1#16 from rfl, ← BitVec.neg_eq_not_add, ← BitVec.sub_eq_add_neg]

/-- Settles O14: the specs of the three instructions in turn (O11, O9); the first two leave `a` alone. -/
theorem subtractionByNotAndAdd : Obligations.SubtractionByNotAndAdd := by
  intro d a b s hab
  have ha : a ∉ [b] := List.mem_singleton.not.mpr hab
  obtain ⟨t1, h1, hb1, -, hframe1, -⟩ := notWritesTheComplementAndTheFlag b b s
  obtain ⟨-, t2, h2, hb2, -, hframe2, -⟩ := addWritesTheSumAndTheFlag b b b 1#5 t1
  obtain ⟨⟨t3, h3, hd3, hcond3, -⟩, -⟩ := addWritesTheSumAndTheFlag d a b 0#5 t2
  have hdiff : t2.reg a + t2.reg b = s.reg a - s.reg b := by
    rw [hframe2 a ha, hframe1 a ha, hb2, hb1, add_xor_ones_add_one]
  exact ⟨t1, t2, t3, h1, h2, h3, hd3.trans hdiff, hcond3.trans (congrArg condOf hdiff)⟩

end Sys2Proof.Machine
end

section
/-! Control transfers (rules R120 to R125): where BR, JMP, JSR and JSRR go, and that they change nothing
else but the link. -/

namespace Sys2Proof.Machine

/-! ## The transfers and their frames -/

/-- A jump changes `pc` and nothing else. -/
theorem setPc_frame (s : State) (v : Word) :
    SameRegsExcept [] s (s.setPc v) ∧ (s.setPc v).cond = s.cond ∧ SameMem s (s.setPc v) ∧
      SameControl s (s.setPc v) ∧ SameConsole s (s.setPc v) :=
  ⟨fun _ _ => rfl, rfl, fun _ => rfl, ⟨rfl, rfl⟩, ⟨rfl, rfl⟩⟩

/-- A linked jump changes `x[7]` and `pc` and nothing else, the flag included (rule R27). -/
theorem link_setPc_frame (s : State) (v : Word) :
    SameRegsExcept [.r7] s (s.link.setPc v) ∧ (s.link.setPc v).cond = s.cond ∧
      SameMem s (s.link.setPc v) ∧ SameControl s (s.link.setPc v) ∧ SameConsole s (s.link.setPc v) := by
  have hregs : SameRegsExcept [.r7] s (s.link.setPc v) := fun r hr => by
    rw [State.reg_setPc, State.reg_link, if_neg (List.mem_singleton.not.mp hr)]
  exact ⟨hregs, rfl, fun _ => rfl, ⟨rfl, rfl⟩, ⟨rfl, rfl⟩⟩

/-- A linked jump saves the return address whatever its target is (rule R125). -/
theorem reg_r7_link_setPc (s : State) (v : Word) : (s.link.setPc v).reg .r7 = s.pc := by
  rw [State.reg_setPc, State.reg_link, if_pos rfl]

/-! ## BR and JMP -/

/-- The model matches the flag by its value; rule R120 writes a disjunction over the three bits. -/
theorem Cond.matched_iff (c : Cond) (n z p : Bool) :
    c.matched n z p = true ↔ (n = true ∧ c = .n) ∨ (z = true ∧ c = .z) ∨ (p = true ∧ c = .p) := by
  cases c <;> simp [Cond.matched]

/-- A branch is a jump in both cases: one not taken goes to the post-increment `pc`. -/
theorem exec_br (n z p : Bool) (off9 : BitVec 9) (s : State) :
    exec (.br n z p off9) s =
      .next (s.setPc (if s.cond.matched n z p then s.pcRelative off9 else s.pc)) := by
  change execBr n z p off9 s = _
  rw [execBr]
  split <;> rfl

/-- Settles O15: a branch is a jump, and its target is chosen by `Cond.matched_iff`. -/
theorem branchIsTakenWhenAConditionBitMatches : Obligations.BranchIsTakenWhenAConditionBitMatches := by
  intro n z p off9 s
  refine ⟨_, exec_br n z p off9 s, ?_, setPc_frame s _⟩
  simp only [State.pc_setPc, Cond.matched_iff, State.pcRelative]

/-- Settles O16: JMP is a jump to the base register. -/
theorem jumpGoesToTheBaseRegister : Obligations.JumpGoesToTheBaseRegister :=
  fun _ s => ⟨_, rfl, State.pc_setPc s _, setPc_frame s _⟩

/-! ## JSR and JSRR -/

/-- Settles O17: JSR is a linked jump. -/
theorem jsrLinksAndJumpsRelative : Obligations.JsrLinksAndJumpsRelative :=
  fun _ s => ⟨_, rfl, reg_r7_link_setPc s _, State.pc_setPc s.link _, link_setPc_frame s _⟩

/-- Settles O18: JSRR is a linked jump, and its target is the base as it is after the link write
(decision D5). -/
theorem jsrrLinksAndJumpsToTheBaseRegister : Obligations.JsrrLinksAndJumpsToTheBaseRegister :=
  fun baseR s => ⟨_, rfl, reg_r7_link_setPc s _, State.reg_link s baseR, link_setPc_frame s _⟩

/-- Settles O19: the link clauses of O17 and O18. -/
theorem jsrAndJsrrAlwaysSaveTheReturnAddress : Obligations.JsrAndJsrrAlwaysSaveTheReturnAddress := by
  rintro i off11 baseR s (rfl | rfl)
  · obtain ⟨t, ht, hlink, -⟩ := jsrLinksAndJumpsRelative off11 s
    exact ⟨t, ht, hlink⟩
  · obtain ⟨t, ht, hlink, -⟩ := jsrrLinksAndJumpsToTheBaseRegister baseR s
    exact ⟨t, ht, hlink⟩

end Sys2Proof.Machine
end

section
/-! Loads and LEA (rules R130 to R134): each load ends in one read and one result, and LDI reads its pointer
before. -/

namespace Sys2Proof.Machine

/-! ## The end of every load -/

/-- A load is a read (rule R52) and then a result written to `dr`, so it changes what the one or the other
does. -/
theorem loadResult_loadInto (dr : Reg) (a : Word) (s : State) :
    LoadResult dr a (memRead a s).1 s (loadInto dr a s) := by
  obtain ⟨hread, hregs, hpc, -, hcontrol, houtq⟩ := readOfKbsrPollsTheConsole a s
  obtain ⟨hdr, hcond, hframe, -⟩ := registerResult_writeResult dr (memRead a s).1 (memRead a s).2
  exact ⟨hread, hdr, hcond, fun r hr => (hframe r hr).trans (hregs r List.not_mem_nil), hpc, hcontrol, houtq⟩

/-- A load leaves alone every cell that no read changes. -/
theorem sameMemExcept_loadInto (dr : Reg) (a : Word) (s : State) :
    SameMemExcept [Config.kbsrAddr, Config.kbdrAddr] s (loadInto dr a s) :=
  s.read_afterRead a

/-! ## LD, LDR and LDI -/

/-- Settles O25: LD is a load at the PC-relative address. -/
theorem ldLoadsThePcRelativeWord : Obligations.LdLoadsThePcRelativeWord :=
  fun dr _ s => ⟨_, _, rfl, loadResult_loadInto dr _ s⟩

/-- Settles O27: LDR is a load at the base plus the offset, and its address is taken from the state before
the result is written. -/
theorem ldrLoadsAtBasePlusOffset : Obligations.LdrLoadsAtBasePlusOffset :=
  fun dr _ _ s => ⟨_, _, rfl, loadResult_loadInto dr _ s⟩

/-- Settles O26: LDI is a read of the pointer and then a load, in the state which that read leaves. The frame
against the first state composes those of the two. -/
theorem ldiLoadsThroughThePointer : Obligations.LdiLoadsThroughThePointer := by
  intro dr off9 s
  obtain ⟨-, hregs, hpc, -, ⟨hrun, hwait⟩, houtq⟩ := readOfKbsrPollsTheConsole (s.pc + sext off9) s
  obtain ⟨-, -, -, hregs', hpc', ⟨hrun', hwait'⟩, houtq'⟩ :=
    loadResult_loadInto dr (memRead (s.pc + sext off9) s).1 (memRead (s.pc + sext off9) s).2
  refine ⟨_, _, rfl, loadResult_loadInto dr _ _, fun r hr => ?_, hpc'.trans hpc, ⟨hrun'.trans hrun, hwait'.trans hwait⟩,
    houtq'.trans houtq, fun b hb => ?_⟩
  · exact (hregs' r hr).trans (hregs r List.not_mem_nil)
  · exact (sameMemExcept_loadInto dr _ _ b hb).trans (s.read_afterRead _ b hb)

/-! ## LEA -/

/-- Settles O28: LEA ends in `writeResult` and reads no memory. -/
theorem leaComputesTheAddressWithoutMemory : Obligations.LeaComputesTheAddressWithoutMemory :=
  fun dr _ s => ⟨_, rfl, registerResult_writeResult dr _ s⟩

end Sys2Proof.Machine
end

section
/-! Stores (rules R140 to R143): each store ends in one write, and STI reads its pointer before. -/

namespace Sys2Proof.Machine

/-! ## The end of every store -/

/-- `MemWrite` (rule R54) is the whole effect of a store. -/
theorem storeResult_memWrite (a v : Word) (s : State) : StoreResult a v s (s.memWrite a v) := by
  obtain ⟨hread, hregs, hpc, hcond, hcontrol, hconsole⟩ := writeStoresOneCellAndNothingElse a v s
  exact ⟨(hread a).trans (if_pos rfl), sameMemExcept_memWrite s a v, hregs, hcond, hpc, hcontrol, hconsole⟩

/-! ## ST and STR -/

/-- Settles O29: ST is a write at the PC-relative address. -/
theorem stStoresAtThePcRelativeAddress : Obligations.StStoresAtThePcRelativeAddress :=
  fun sr _ s => ⟨_, rfl, storeResult_memWrite _ (s.reg sr) s⟩

/-- Settles O31: STR is a write at the base plus the offset. No register is written, so the base may be the
register stored. -/
theorem strStoresAtBasePlusOffset : Obligations.StrStoresAtBasePlusOffset :=
  fun sr _ _ s => ⟨_, rfl, storeResult_memWrite _ (s.reg sr) s⟩

/-! ## STI -/

/-- STI writes in the state that the pointer read leaves, and the register it stores is the one from before
that read. -/
theorem exec_sti (sr : Reg) (off9 : BitVec 9) (s : State) :
    exec (.sti sr off9) s = .next ((memRead (s.pc + sext off9) s).2.memWrite
      (memRead (s.pc + sext off9) s).1 (s.reg sr)) := by
  rw [← s.reg_afterRead (s.pc + sext off9) sr]
  rfl

/-- Settles O30: STI is a read of the pointer and then a write where it points. The frame against the first
state composes those of the two, and off KBSR the read leaves the state as it is. -/
theorem stiStoresThroughThePointer : Obligations.StiStoresThroughThePointer := by
  intro sr off9 s
  obtain ⟨-, hregs, hpc, hcond, ⟨hrun, hwait⟩, houtq⟩ := readOfKbsrPollsTheConsole (s.pc + sext off9) s
  obtain ⟨-, hmem', hregs', hcond', hpc', ⟨hrun', hwait'⟩, -, houtq'⟩ :=
    storeResult_memWrite (memRead (s.pc + sext off9) s).1 (s.reg sr) (memRead (s.pc + sext off9) s).2
  refine ⟨_, exec_sti sr off9 s, storeResult_memWrite _ _ _, fun r hr => (hregs' r hr).trans (hregs r hr),
    hcond'.trans hcond, hpc'.trans hpc, ⟨hrun'.trans hrun, hwait'.trans hwait⟩, houtq'.trans houtq,
    SameMemExcept.trans (s.read_afterRead _) hmem', fun ha => ?_⟩
  rw [memRead_of_ne ha]
  exact storeResult_memWrite _ _ s

end Sys2Proof.Machine
end

section
/-! TRAP and the services without a string (rules R150 to R153, R155, R157 to R159): the link, what each
service adds to it, and the completions of GETC and IN. -/

namespace Sys2Proof.Machine

variable {s t : State} {b : Byte} {rest : List Byte}

/-! ## The link -/

/-- Whatever a service does, it writes no register after the link write (rules R150, R186). -/
theorem link_frame_of_regs (h : t.regs = s.link.regs) : t.reg .r7 = s.pc ∧ SameRegsExcept [.r7] s t := by
  have hreg : ∀ r, t.reg r = if r = .r7 then s.pc else s.reg r := fun r => by
    rw [State.reg, h, ← State.reg, State.reg_link]
  exact ⟨(hreg .r7).trans (if_pos rfl), fun r hr => (hreg r).trans (if_neg (List.mem_singleton.not.mp hr))⟩

/-- Settles O33: every TRAP stays inside its frame. -/
theorem trapSavesTheReturnAddressAndCompletes : Obligations.TrapSavesTheReturnAddressAndCompletes := by
  intro v s
  obtain ⟨t, ht, frame⟩ := execTrap_next v s
  obtain ⟨hlink, hregs⟩ := link_frame_of_regs frame.regs
  exact ⟨t, ht, hlink, hregs, frame.pc, frame.cond, frame.mem⟩

/-! ## Vectors without a service, HALT and OUT -/

/-- The six services have the vectors 0x20 to 0x25 (rule R151). -/
theorem serviceOf_of_outside {v : BitVec 8} (hv : v.toNat < 0x20 ∨ 0x25 < v.toNat) :
    serviceOf v = .undefinedVector := by
  have hne : ∀ c : BitVec 8, 0x20 ≤ c.toNat ∧ c.toNat ≤ 0x25 → v ≠ c := by
    rintro c hc rfl
    omega
  simp [serviceOf, hne]

/-- Settles O38: such a vector leaves the state as the link write leaves it. -/
theorem undefinedVectorOnlySavesTheReturnAddress : Obligations.UndefinedVectorOnlySavesTheReturnAddress := by
  intro v s hv
  have hexec : exec (.trap v) s = .next s.link := by
    change runService v s.link = _
    rw [runService, serviceOf_of_outside hv]
  obtain ⟨hlink, hregs⟩ := link_frame_of_regs (rfl : s.link.regs = s.link.regs)
  exact ⟨_, hexec, hlink, hregs, rfl, rfl, fun _ => rfl, ⟨rfl, rfl⟩, ⟨rfl, rfl⟩⟩

/-- Settles O37: the link, the banner and the end of the run. -/
theorem haltEndsTheRun : Obligations.HaltEndsTheRun := by
  intro s
  obtain ⟨hlink, hregs⟩ := link_frame_of_regs (rfl : (serviceHalt s.link).regs = s.link.regs)
  exact ⟨_, rfl, rfl, rfl, rfl, rfl, hlink, hregs, rfl, rfl, fun _ => rfl⟩

/-- What a service that only writes bytes does, from the state after the link write: OUT, and PUTS and
PUTSP on a string that lies off KBSR. -/
theorem link_consoleOut_frame (s : State) (bs : List Byte) :
    (s.link.consoleOut bs).outq = s.outq ++ bs ∧ (s.link.consoleOut bs).inq = s.inq ∧
      (s.link.consoleOut bs).reg .r7 = s.pc ∧ SameRegsExcept [.r7] s (s.link.consoleOut bs) ∧
      (s.link.consoleOut bs).pc = s.pc ∧ (s.link.consoleOut bs).cond = s.cond ∧
      SameMem s (s.link.consoleOut bs) ∧ SameControl s (s.link.consoleOut bs) := by
  obtain ⟨hlink, hregs⟩ := link_frame_of_regs (rfl : (s.link.consoleOut bs).regs = s.link.regs)
  exact ⟨rfl, rfl, hlink, hregs, rfl, rfl, fun _ => rfl, ⟨rfl, rfl⟩⟩

/-- Settles O35: OUT writes one byte, and the link write leaves `x[0]` alone. -/
theorem outWritesTheLowByteOfR0 : Obligations.OutWritesTheLowByteOfR0 :=
  fun s => ⟨_, rfl, link_consoleOut_frame s _⟩

/-! ## GETC and IN -/

/-- The step of a running block that waits for GETC and finds input (rule R152). -/
theorem step_getcWait (hrun : s.run = .running) (hwait : s.wait = .getcWait) (hq : s.inq = b :: rest) :
    step s = .next ((({ s with inq := rest } : State).writeResult .r0 (zext16 b)).setWait .none) := by
  simp only [step, blockStep, hrun, hwait, completeGetc, State.consoleIn_cons hq]

/-- The step of a running block that waits for IN and finds input (rule R155). -/
theorem step_inWait (hrun : s.run = .running) (hwait : s.wait = .inWait) (hq : s.inq = b :: rest) :
    step s = .next ((({ s with inq := rest, outq := s.outq ++ [b] } : State).writeResult .r0
      (zext16 b)).setWait .none) := by
  simp only [step, blockStep, hrun, hwait, completeIn, State.consoleIn_cons hq, State.consoleOut]

/-- A zero-extended byte is never negative (rule R26, decision D16). -/
theorem condOf_zext16 (b : Byte) : condOf (zext16 b) = if b = 0#8 then .z else .p := by
  by_cases hb : b = 0#8
  · subst hb
    rfl
  · have hv : zext16 b ≠ 0#16 := fun h => hb (by simpa [zext16] using congrArg (BitVec.setWidth 8) h)
    have hsign : (zext16 b).getLsbD 15 = false := by simp [zext16]
    rw [condOf_of_ne_zero hv, hsign, if_neg hb]
    rfl

/-- Settles O34: the first step adds a wait to the link; the second writes the byte as a result. -/
theorem getcWaitsAndThenReadsOneByte : Obligations.GetcWaitsAndThenReadsOneByte := by
  refine ⟨fun s => ?_, fun s b rest hrun hwait hq => ?_⟩
  · obtain ⟨hlink, hregs⟩ := link_frame_of_regs (rfl : (serviceGetc s.link).regs = s.link.regs)
    exact ⟨_, rfl, rfl, hlink, hregs, rfl, rfl, fun _ => rfl, rfl, ⟨rfl, rfl⟩⟩
  · obtain ⟨hr0, hcond, hregs, -⟩ := registerResult_writeResult .r0 (zext16 b) { s with inq := rest }
    exact ⟨_, step_getcWait hrun hwait hq, hr0, hcond.trans (condOf_zext16 b), rfl, rfl, rfl, hregs, rfl,
      fun _ => rfl, hrun⟩

/-- Settles O36: the first step adds the prompt and a wait to the link; the second writes the byte as a
result, after the echo. -/
theorem inPromptsWaitsReadsAndEchoes : Obligations.InPromptsWaitsReadsAndEchoes := by
  refine ⟨fun s => ?_, fun s b rest hrun hwait hq => ?_⟩
  · obtain ⟨hlink, hregs⟩ := link_frame_of_regs (rfl : (serviceInput s.link).regs = s.link.regs)
    exact ⟨_, rfl, rfl, rfl, rfl, hlink, hregs, rfl, rfl, fun _ => rfl, rfl⟩
  · obtain ⟨hr0, hcond, hregs, -⟩ :=
      registerResult_writeResult .r0 (zext16 b) { s with inq := rest, outq := s.outq ++ [b] }
    exact ⟨_, step_inWait hrun hwait hq, hr0, hcond.trans (condOf_zext16 b), rfl, rfl, rfl, hregs, rfl,
      fun _ => rfl, hrun⟩

end Sys2Proof.Machine
end

section
/-! The string scan of PUTS and PUTSP (rules R154, R156): its bound never shows while string reads poll,
what it writes for a string off KBSR, and when it would hang if string reads did not poll. -/

namespace Sys2Proof.Machine

variable {bytes : Word → List Byte} {n : Nat} {a : Word} {m : Memory} {w : Word} {ws : List Word} {s t : State}

/-! ## The bound on the words read -/

/-- A polling scan that ends under some bound ends in the same state under `scanBound`. -/
theorem scanString_bound_of_some (h : scanString true bytes n a s = some t) :
    scanString true bytes (scanBound s) a s = some t := by
  obtain ⟨u, hu⟩ := scanString_bound_ends bytes a s
  have ht := scanString_mono (Nat.le_max_left n (scanBound s)) h
  have hu' := scanString_mono (Nat.le_max_right n (scanBound s)) hu
  rw [hu, ← hu', ht]

/-- The bound covers every cell of memory at least once. -/
theorem scanBound_ge (s : State) : Config.memSize ≤ scanBound s :=
  Nat.le_mul_of_pos_right _ s.inq.length.succ_pos

/-- Settles O41: after one turn the rest of the scan ends within what is left of the bound, so it ends alike
under the bound of the state it starts from. -/
theorem stringScanFollowsTheLoopOfTheRule : Obligations.StringScanFollowsTheLoopOfTheRule := by
  intro bytes a s
  obtain ⟨t, ht⟩ := scanString_bound_ends bytes a s
  obtain ⟨n, hn⟩ : ∃ n, scanBound s = n + 1 :=
    Nat.exists_eq_add_one.mpr (Nat.lt_of_lt_of_le (by decide) (scanBound_ge s))
  refine ht.trans ?_
  rw [hn, scanString_polls] at ht
  by_cases hz : s.readValue a = 0#16
  · rw [if_pos hz] at ht
    exact ht.symm.trans (if_pos hz).symm
  · rw [if_neg hz] at ht
    exact (scanString_bound_of_some ht).symm.trans (if_neg hz).symm

/-! ## A string that lies off KBSR -/

/-- The nonzero words `ws` stand from `a` on, addresses modulo 2^16, with a zero word after them, and KBSR is
not among their cells. -/
def HoldsString (m : Memory) (a : Word) (ws : List Word) : Prop :=
  (∀ k (h : k < ws.length), a + BitVec.ofNat 16 k ≠ Config.kbsrAddr ∧
    m.read (a + BitVec.ofNat 16 k) = ws[k] ∧ ws[k] ≠ 0#16) ∧
  a + BitVec.ofNat 16 ws.length ≠ Config.kbsrAddr ∧ m.read (a + BitVec.ofNat 16 ws.length) = 0#16

/-- A scan address counted from the next address on. -/
theorem add_one_add_ofNat (a : Word) (k : Nat) : a + 1#16 + BitVec.ofNat 16 k = a + BitVec.ofNat 16 (k + 1) := by
  rw [BitVec.add_assoc, ← BitVec.ofNat_add, Nat.add_comm 1 k]

theorem holdsString_nil : HoldsString m a [] ↔ a ≠ Config.kbsrAddr ∧ m.read a = 0#16 := by
  simp [HoldsString]

theorem HoldsString.head (h : HoldsString m a (w :: ws)) :
    a ≠ Config.kbsrAddr ∧ m.read a = w ∧ w ≠ 0#16 := by
  simpa using h.1 0 (Nat.succ_pos _)

theorem HoldsString.tail (h : HoldsString m a (w :: ws)) : HoldsString m (a + 1#16) ws := by
  obtain ⟨hws, hend⟩ := h
  refine ⟨fun k hk => ?_, ?_⟩
  · rw [add_one_add_ofNat]
    exact hws (k + 1) (Nat.succ_lt_succ hk)
  · rw [add_one_add_ofNat]
    exact hend

/-- A scan of a string off KBSR polls nothing: it only writes the bytes of the words. -/
theorem scanString_of_holdsString (h : HoldsString s.mem a ws) :
    scanString true bytes (ws.length + 1) a s = some (s.consoleOut (ws.flatMap bytes)) := by
  induction ws generalizing a s with
  | nil =>
    obtain ⟨ha, hz⟩ := holdsString_nil.mp h
    rw [scanString_polls, State.readValue_of_ne ha, State.afterRead_of_ne ha, if_pos hz]
    simp [State.consoleOut]
  | cons w ws ih =>
    obtain ⟨ha, hw, hz⟩ := h.head
    rw [scanString_polls, State.readValue_of_ne ha, State.afterRead_of_ne ha, hw, if_neg hz]
    refine (ih (s := s.consoleOut (bytes w)) h.tail).trans ?_
    simp [State.consoleOut]

/-- A string service on a string off KBSR writes the bytes of its words and does nothing else. -/
theorem serviceString_of_holdsString (h : HoldsString s.mem (s.reg .r0) ws) :
    serviceString Config.stringReadPolls bytes s = .next (s.consoleOut (ws.flatMap bytes)) :=
  serviceString_eq_next_iff.mpr (scanString_bound_of_some (scanString_of_holdsString h))

/-- Settles O39: PUTS writes one byte for each word of the string. The link write leaves `x[0]` and the
memory alone. -/
theorem putsWritesTheStringUpToTheZeroWord : Obligations.PutsWritesTheStringUpToTheZeroWord := by
  intro s ws hws hend hzero
  have hputs : exec (.trap 0x22#8) s = .next (s.link.consoleOut (ws.flatMap putsBytes)) :=
    serviceString_of_holdsString (s := s.link) ⟨hws, hend, hzero⟩
  have hbytes : ws.flatMap putsBytes = ws.map lowByte := List.flatMap_pure_eq_map lowByte ws
  exact ⟨_, hputs, hbytes ▸ link_consoleOut_frame s _⟩

/-- The model chooses between two lists; rule R156 appends the high byte unless it is zero. -/
theorem putspBytes_eq (w : Word) :
    putspBytes w = lowByte w :: if highByte w = 0#8 then [] else [highByte w] := by
  unfold putspBytes
  split <;> rfl

/-- Settles O40: PUTSP writes one or two bytes for each word of the string. The link write leaves `x[0]` and
the memory alone. -/
theorem putspWritesThePackedStringUpToTheZeroWord : Obligations.PutspWritesThePackedStringUpToTheZeroWord := by
  intro s ws hws hend hzero
  have hputsp : exec (.trap 0x24#8) s = .next (s.link.consoleOut (ws.flatMap putspBytes)) :=
    serviceString_of_holdsString (s := s.link) ⟨hws, hend, hzero⟩
  rw [funext putspBytes_eq] at hputsp
  exact ⟨_, hputsp, link_consoleOut_frame s _⟩

/-! ## Plain string reads -/

theorem serviceString_eq_hang_iff {polls : Bool} :
    serviceString polls bytes s = .fault .hang ↔
      scanString polls bytes (scanBound s) (s.reg .r0) s = none := by
  unfold serviceString
  cases scanString polls bytes (scanBound s) (s.reg .r0) s <;> simp

/-- A scan with plain reads changes no memory, so it reaches its bound exactly when none of the first `n`
cells from `a` on reads zero. -/
theorem scanString_plain_eq_none_iff :
    scanString false bytes n a s = none ↔ ∀ k < n, s.mem.read (a + BitVec.ofNat 16 k) ≠ 0#16 := by
  induction n generalizing a s with
  | zero => simp [scanString]
  | succ n ih =>
    rw [scanString_plain, Nat.forall_lt_succ_left]
    split
    · next hz => simp [hz]
    · next hz => simp [hz, ih, add_one_add_ofNat]

/-- Settles O42: the bound covers 65,536 words, so every cell of memory is among those read. -/
theorem scanWithoutPollsHangsWithoutAZeroWord : Obligations.ScanWithoutPollsHangsWithoutAZeroWord := by
  intro bytes s
  rw [serviceString_eq_hang_iff, scanString_plain_eq_none_iff]
  refine ⟨fun h a => ?_, fun h k _ => h _⟩
  have hlt : (a - s.reg .r0).toNat < scanBound s := (a - s.reg .r0).isLt.trans_le (scanBound_ge s)
  have haddr : s.reg .r0 + BitVec.ofNat 16 (a - s.reg .r0).toNat = a := by
    rw [BitVec.ofNat_toNat, BitVec.setWidth_eq, BitVec.add_comm, BitVec.sub_add_cancel]
  exact haddr ▸ h _ hlt

end Sys2Proof.Machine
end

section
/-! The fatal decode error (rules R170 to R172, R180, R181): what it writes, and the state a step that takes
it leaves. -/

namespace Sys2Proof.Machine

variable {s : State}

/-! ## What the exception writes -/

/-- The exception entry writes `run` and nothing else. -/
theorem raiseInvalidOpcode_frame (op : BitVec 4) (s : State) :
    (raiseInvalidOpcode op s).run = .fatal op ∧ (raiseInvalidOpcode op s).wait = s.wait ∧
      SameRegsExcept [] s (raiseInvalidOpcode op s) ∧ (raiseInvalidOpcode op s).pc = s.pc ∧
      (raiseInvalidOpcode op s).cond = s.cond ∧ SameMem s (raiseInvalidOpcode op s) ∧
      SameConsole s (raiseInvalidOpcode op s) :=
  ⟨rfl, rfl, fun _ _ => rfl, rfl, rfl, fun _ => rfl, rfl, rfl⟩

/-- Settles O43: both are the exception entry, on their own opcode. -/
theorem rtiAndReservedTakeTheFatalDecodeError : Obligations.RtiAndReservedTakeTheFatalDecodeError :=
  fun s => ⟨⟨_, rfl, raiseInvalidOpcode_frame 8#4 s⟩, ⟨_, rfl, raiseInvalidOpcode_frame 13#4 s⟩⟩

/-! ## The step that takes it -/

/-- An illegal word runs the exception entry on its own opcode. -/
theorem exec_decode_of_illegal {w : Word} (hop : opcodeField w = 8#4 ∨ opcodeField w = 13#4) (s : State) :
    exec (decode w) s = .next (raiseInvalidOpcode (opcodeField w) s) := by
  rcases hop with hop | hop
  · have hi : decode w = .rti := decode_eq_iff.mpr hop
    rw [hi, hop]
    rfl
  · have hi : decode w = .res := decode_eq_iff.mpr hop
    rw [hi, hop]
    rfl

/-- A step that fetches an illegal word is the fetch and then the exception entry. -/
theorem step_of_illegal (hrun : s.run = .running) (hwait : s.wait = .none)
    (hop : opcodeField (s.readValue s.pc) = 8#4 ∨ opcodeField (s.readValue s.pc) = 13#4) :
    step s = .next (raiseInvalidOpcode (opcodeField (s.readValue s.pc))
      ((s.afterRead s.pc).setPc (s.pc + 1#16))) := by
  rw [step_eq_instructionStep hrun hwait, instructionStep_eq, exec_decode_of_illegal hop]

/-- The ready pattern as a fetched word has the opcode of RTI (decision D3, log entry 3). -/
theorem opcodeField_kbsrReady : opcodeField Config.kbsrReady = 8#4 := by decide

/-- Settles O44: the fetch has the effect and the frame of a read (O20), and the exception entry adds `run`
only. A fetch from KBSR that finds input reads the ready pattern, which is such a word. -/
theorem stateAfterAFatalDecodeError : Obligations.StateAfterAFatalDecodeError := by
  refine ⟨fun s w hrun hwait hw hop => ?_, fun s hrun hwait hpc hq => ?_⟩
  · subst hw
    obtain ⟨heffect, hregs, -, hcond, ⟨-, hwait'⟩, houtq⟩ := readOfKbsrPollsTheConsole s.pc s
    exact ⟨_, step_of_illegal hrun hwait hop, rfl, rfl, hregs, hcond, houtq, hwait'.trans hwait, heffect⟩
  · have hop : opcodeField (s.readValue s.pc) = 8#4 := by
      rw [hpc, State.readValue_kbsr, if_neg hq, opcodeField_kbsrReady]
    exact ⟨_, step_of_illegal hrun hwait (.inl hop), congrArg RunState.fatal hop⟩

end Sys2Proof.Machine
end
